-- ==== Sys2Proof/Word.lean ====
section
/-! DEFINITION. The one machine word of this hardware (spec/00_scope.md R8, R13; 92 D1): an unsigned byte. -/

namespace Sys2Proof

/-- R8: `Byte` is an unsigned 8-bit value, bits numbered 0 (least significant) to 7. Memory cells, registers,
opcodes and operands are all bytes (R13, R35, R53). -/
abbrev Byte := BitVec 8

end Sys2Proof
end

