-- ==== Sys2Proof/Config.lean ====
section
/-! DEFINITION. What is fixed for a machine and is not state: the sizes of R6, the nine instruction roles with the
source's operand counts and sets-PC flags (R2, R57), and the shape of the configuration table OPC (R7). The
table's default bytes stand in Decode.lean. -/

namespace Sys2Proof

/-- R6 `MEM_SIZE`: 256 byte cells, addresses 0..255. -/
abbrev memSize : Nat := 256

/-- R6 `NREG`: 8 registers, index 0..7. -/
abbrev numRegs : Nat := 8

/-- R6 `SP_RESET`: the stack pointer right after construction. -/
def spReset : Byte := 0xF4#8

/-- R6 `PC_RESET`. -/
def pcReset : Nat := 0

/-- R2, R12: the nine instruction roles; a handler belongs to a role, not to an opcode byte. -/
inductive Role where
  | load | print | halt | add | multiply | push | pop | call | ret
  deriving DecidableEq, Repr

/-- The nine roles in the order of R57's table. -/
def Role.all : List Role :=
  [.load, .print, .halt, .add, .multiply, .push, .pop, .call, .ret]

/-- R57, column n: the operand count of a role. -/
def Role.operandCount : Role → Nat
  | .load | .add | .multiply => 2
  | .print | .push | .pop | .call => 1
  | .halt | .ret => 0

/-- R57, column P: whether the handler sets the program counter itself (R56). -/
def Role.setsPc : Role → Bool
  | .call | .ret => true
  | .load | .print | .halt | .add | .multiply | .push | .pop => false

/-- R7: the configuration table `OPC`, one opcode byte for each role. -/
structure OpcTable where
  load : Byte
  print : Byte
  halt : Byte
  add : Byte
  multiply : Byte
  push : Byte
  pop : Byte
  call : Byte
  ret : Byte
  deriving DecidableEq, Repr

end Sys2Proof
end

