-- ==== Sys2Proof/Syntax.lean ====
section
/-! DEFINITION. The instructions: one constructor for each row of spec/opcode_table.json (R2, R57). -/

namespace Sys2Proof

/-- R61: an instruction with its operand bytes. A register operand is the WHOLE byte, 0..255 (R62): the decoder
does not check it, the handler does. -/
inductive Instr where
  /-- `Load Ra, imm` (R85). -/
  | load (a imm : Byte)
  /-- `Print Ra` (R86). -/
  | print (a : Byte)
  /-- `Halt` (R87). -/
  | halt
  /-- `Add Ra, Rb` (R88). -/
  | add (a b : Byte)
  /-- `Multiply Ra, Rb` (R89). -/
  | multiply (a b : Byte)
  /-- `Push Ra` (R93). -/
  | push (a : Byte)
  /-- `Pop Ra` (R94). -/
  | pop (a : Byte)
  /-- `Call Ra` (R96). -/
  | call (a : Byte)
  /-- `Return` (R97). -/
  | ret
  deriving DecidableEq, Repr

/-- The role of an instruction (R76). -/
def Instr.role : Instr → Role
  | .load _ _ => .load
  | .print _ => .print
  | .halt => .halt
  | .add _ _ => .add
  | .multiply _ _ => .multiply
  | .push _ => .push
  | .pop _ => .pop
  | .call _ => .call
  | .ret => .ret

/-- R53, R61: the operand bytes in the order they stand in memory, op1 first. -/
def Instr.operands : Instr → List Byte
  | .load a imm => [a, imm]
  | .add a b | .multiply a b => [a, b]
  | .print a | .push a | .pop a | .call a => [a]
  | .halt | .ret => []

end Sys2Proof
end

