-- ==== Sys2Proof/WellFormed.lean ====
section
/-! DEFINITION. When an instruction is one the assembly text can write: every register operand names one of R0..R7
(R67). Instructions that fail this still have an encoding and still run: they raise InvalidRegister (R62). -/

namespace Sys2Proof

/-- R62, R67: the byte names a register. -/
def namesRegister (a : Byte) : Bool := a.toNat < numRegs

/-- R67: every register operand of the instruction names one of R0..R7; an immediate may be any byte (R63). -/
def Instr.wellFormed : Instr → Bool
  | .load a _ => namesRegister a
  | .add a b | .multiply a b => namesRegister a && namesRegister b
  | .print a | .push a | .pop a | .call a => namesRegister a
  | .halt | .ret => true

end Sys2Proof
end

