-- ==== Sys2Proof/Decode.lean ====
section
/-! DEFINITION. The opcode table's bytes and checks (R57, R58), the decoder (R53 to R65) and the encoder. -/

namespace Sys2Proof

/-- R55: the operand count field, `opcode[7:6]`. -/
def opcodeCount (op : Byte) : Nat := (op >>> 6).toNat

/-- R56: the sets-PC flag, `opcode[4]`. -/
def opcodeSetsPc (op : Byte) : Bool := op.getLsbD 4

/-- The opcode byte the table gives a role. -/
def OpcTable.byte (t : OpcTable) : Role → Byte
  | .load => t.load
  | .print => t.print
  | .halt => t.halt
  | .add => t.add
  | .multiply => t.multiply
  | .push => t.push
  | .pop => t.pop
  | .call => t.call
  | .ret => t.ret

/-- R58, check 1: the nine bytes are distinct. -/
def OpcTable.distinct (t : OpcTable) : Bool :=
  Role.all.all fun r => Role.all.all fun r' => decide (t.byte r = t.byte r' → r = r')

/-- R58, check 2: bits 7:6 of each byte are its role's operand count. -/
def OpcTable.countsAgree (t : OpcTable) : Bool :=
  Role.all.all fun r => opcodeCount (t.byte r) = r.operandCount

/-- R58, check 3: bit 4 of each byte is its role's sets-PC flag. -/
def OpcTable.flagsAgree (t : OpcTable) : Bool :=
  Role.all.all fun r => opcodeSetsPc (t.byte r) = r.setsPc

/-- R7, R58: the table passes all three checks. -/
def OpcTable.valid (t : OpcTable) : Bool :=
  t.distinct && t.countsAgree && t.flagsAgree

/-- R7, R58: a table the machine is configured with. It carries the proof that it passes the checks, so no decoder,
encoder, step, event or run can be given one that fails them. -/
structure Opc where
  table : OpcTable
  valid : table.valid = true
  deriving DecidableEq

/-- Which check of R58 a rejected table fails first. -/
inductive TableError where
  /-- Check 1: two roles have one byte. -/
  | notDistinct
  /-- Check 2: bits 7:6 of a byte are not its role's operand count. -/
  | wrongCount
  /-- Check 3: bit 4 of a byte is not its role's sets-PC flag. -/
  | wrongFlag
  deriving DecidableEq, Repr

/-- R7, R58: "A model given another table must reject it unless it passes the same three checks." The rejection is
here, by name, before anything runs (DEDUCED: assumption 7, safe). -/
def OpcTable.configure (t : OpcTable) : Except TableError Opc :=
  if h : t.valid = true then .ok ⟨t, h⟩
  else if t.distinct = false then .error .notDistinct
  else if t.countsAgree = false then .error .wrongCount
  else .error .wrongFlag

/-- R57, R6: the default table, the LS-8 values. PRESUMED (the spec marks them `[from general knowledge, not in
source]`; 92 D3): unsafe for claims about bytes, see assumption 3. -/
def defaultOpc : Opc where
  table :=
    { load := 0x82#8, print := 0x47#8, halt := 0x01#8, add := 0xA0#8, multiply := 0xA2#8, push := 0x45#8,
      pop := 0x46#8, call := 0x50#8, ret := 0x11#8 }
  valid := by decide

/-- The opcode byte of a role. -/
def Opc.byte (opc : Opc) (r : Role) : Byte := opc.table.byte r

/-- R59: direct lookup of the whole opcode byte. No bit of the byte is read on its own here. -/
def Opc.role? (opc : Opc) (op : Byte) : Option Role :=
  Role.all.find? fun r => opc.byte r == op

/-- Why no instruction can be decoded. -/
inductive DecodeError where
  /-- There is no opcode byte to read (R72). -/
  | noOpcode
  /-- R60, R73: the opcode byte is not in the table. -/
  | unknownOpcode (op : Byte)
  /-- R74: operand `k` (1 or 2) of the instruction with this opcode cannot be read. -/
  | noOperand (op : Byte) (k : Nat)
  deriving DecidableEq, Repr

/-- R61: the instruction of a role with its operand bytes; a role takes no more of them than its count. -/
def Instr.ofRole (r : Role) (op1 op2 : Byte) : Instr :=
  match r with
  | .load => .load op1 op2
  | .print => .print op1
  | .halt => .halt
  | .add => .add op1 op2
  | .multiply => .multiply op1 op2
  | .push => .push op1
  | .pop => .pop op1
  | .call => .call op1
  | .ret => .ret

/-- R65, R73, R74: decode the instruction whose byte `k` is `read k` (`none`: there is no such byte). The opcode
is looked up first, then op1 is fetched, then op2; an operand the count does not ask for is not read. -/
def decodeFrom (opc : Opc) (read : Nat → Option Byte) : Except DecodeError Instr :=
  match read 0 with
  | none => .error .noOpcode
  | some op =>
    match opc.role? op with
    | none => .error (.unknownOpcode op)
    | some r =>
      if 1 ≤ opcodeCount op ∧ read 1 = none then .error (.noOperand op 1)
      else if 2 ≤ opcodeCount op ∧ read 2 = none then .error (.noOperand op 2)
      else .ok (Instr.ofRole r ((read 1).getD 0) ((read 2).getD 0))

/-- R53, R65: the length in bytes, one more than the count in the opcode's bits 7:6. -/
def Instr.length (opc : Opc) (i : Instr) : Nat := 1 + opcodeCount (opc.byte i.role)

/-- The decoder on a list of bytes: the instruction and the bytes after it, or a reason by name. -/
def decode (opc : Opc) (bytes : List Byte) : Except DecodeError (Instr × List Byte) :=
  match decodeFrom opc fun k => bytes[k]? with
  | .ok i => .ok (i, bytes.drop (i.length opc))
  | .error e => .error e

/-- R53, R66: the bytes of an instruction, the opcode and then its operands. -/
def encode (opc : Opc) (i : Instr) : List Byte := opc.byte i.role :: i.operands

/-- Byte `k` of an instruction whose bits are `w`, the first byte the least significant, when the table gives it
`nbits` bits; every bit above them is 0. -/
def tableByte (nbits w k : Nat) : Byte := BitVec.ofNat 8 ((w % 2 ^ nbits) >>> (8 * k))

/-- The longest instruction has 3 bytes (R54). -/
def tableBytes (nbits w : Nat) : List Byte :=
  [tableByte nbits w 0, tableByte nbits w 1, tableByte nbits w 2]

/-- What the decoder reads, under the default table, from an instruction whose bits are `w`. -/
def decodeTableWord (nbits w : Nat) : Option Instr :=
  match decode defaultOpc (tableBytes nbits w) with
  | .ok (i, _) => some i
  | .error _ => none

end Sys2Proof
end

