-- ==== Sys2Proof/Machine/State.lean ====
section
/-! DEFINITION. The complete state of the machine (R29), the state after reset (R117), and the reasons a step of the
model stops. -/

namespace Sys2Proof.Machine

/-- R101: the five error kinds the core raises. -/
inductive ErrorKind where
  | outOfBounds | invalidRegister | unknownInstruction | stackOverflow | stackUnderflow
  deriving DecidableEq, Repr

/-- R26: the error record. `detail` is an address, a register index, an opcode or a stack pointer, by `kind`. -/
structure ErrorRecord where
  kind : ErrorKind
  pc : Nat
  opcode : Option Byte
  detail : Nat
  deriving DecidableEq, Repr

/-- R24: the engine status. -/
inductive Status where
  | idle
  | running
  | halted
  | faulted (err : ErrorRecord)
  deriving DecidableEq, Repr

/-- Memory as a list of cells: addresses strictly rising, no cell equal to what an unlisted address reads as
(`Memory.wf` in Ops.lean). -/
abbrev Memory := List Host.Cell

/-- R29: "The complete state of the machine". Nothing else is state. -/
structure State where
  /-- R35: the 256 byte cells. -/
  mem : Memory
  /-- R13, R15: R0..R7; R7 is the stack pointer. -/
  x : Vector Byte 8
  /-- R19, R21: a natural number; it never wraps. -/
  pc : Nat
  /-- R24. -/
  status : Status
  /-- R27: the output log, oldest byte first. -/
  out : List Byte
  deriving DecidableEq, Repr

/-- R116, R117: the machine right after construction, for the open parameters `reg_init` (R0..R6) and `mem_init`. -/
def State.resetWith (regInit : Vector Byte 7) (memInit : Memory) : State where
  mem := memInit
  x := regInit.push spReset
  pc := pcReset
  status := .idle
  out := []

/-- R117, with one value for each open parameter. DESIGN CHOICE: `reg_init` is zero (assumption 1) and no cell of
memory is listed (assumption 2); both are unsafe, as a claim must not rest on them (R18, R50). -/
def State.reset : State := .resetWith (Vector.replicate 7 0) []

/-- Why a step stops with no next state. R71: "No step exists in Idle, Halted or Faulted". All three are raised by
`step` alone, and safe: the model stops where the hardware takes no step either. -/
inductive Fault where
  /-- Raised by `step` before `run()` (R33, R71). Safe. -/
  | idle
  /-- Raised by `step` after Halt (R71, R81). Safe. -/
  | halted
  /-- Raised by `step` after a fatal error, whose record it repeats (R71, R81). Safe. -/
  | faulted (err : ErrorRecord)
  deriving DecidableEq, Repr

/-- Why the model gives no meaning. -/
inductive Refusal where
  /-- Raised by a refused arm of `exec` alone (no arm is refused now). Safe. -/
  | notModelled (mnemonic : String)
  deriving DecidableEq, Repr

end Sys2Proof.Machine
end

