-- ==== Sys2Proof/Machine/Ops.lean ====
section
/-! DEFINITION. The named operations over memory, registers and the engine's control state: bounds-checked access
(R9, R36, R37), raising and fault entry (R10, R80, R104), the pc advance (R77), halting (R78) and the stack
steps that Push, Pop, Call and Return share (R92 to R97). -/

namespace Sys2Proof.Machine

/-- What a byte of memory that is not listed reads as. DESIGN CHOICE: zero, one choice of the open `mem_init`
(R50, 92 D10); unsafe, assumption 2. -/
def unlistedByte : Byte := 0

/-- The byte at an address, with no bounds check. -/
def Memory.read : Memory → Nat → Byte
  | [], _ => unlistedByte
  | (k, v) :: m, a => if k = a then v else Memory.read m a

/-- List the byte at an address, keeping addresses rising. -/
def Memory.put : Memory → Nat → Byte → Memory
  | [], a, v => [(a, v)]
  | (k, w) :: m, a, v =>
    if k < a then (k, w) :: Memory.put m a v
    else if k = a then (a, v) :: m
    else (a, v) :: (k, w) :: m

/-- List no byte at an address. -/
def Memory.erase : Memory → Nat → Memory
  | [], _ => []
  | (k, w) :: m, a => if k = a then Memory.erase m a else (k, w) :: Memory.erase m a

/-- Store a byte, with no bounds check; the canonical form is kept. -/
def Memory.write (m : Memory) (a : Nat) (v : Byte) : Memory :=
  if v = unlistedByte then m.erase a else m.put a v

/-- The canonical form from address `lo` up: strictly rising addresses of the machine, no unlisted value. -/
def Memory.wfFrom : Nat → Memory → Bool
  | _, [] => true
  | lo, (k, v) :: m => lo ≤ k && k < memSize && v ≠ unlistedByte && Memory.wfFrom (k + 1) m

/-- The canonical form of memory, so that equal memories are equal data. -/
def Memory.wf (m : Memory) : Bool := m.wfFrom 0

/-- R36, R43: the byte at an address inside [0,255]; no address is reduced modulo 256. -/
def Memory.byteAt? (m : Memory) (a : Nat) : Option Byte :=
  if a < memSize then some (m.read a) else none

/-- R101, R102: an error a step raises, with the value its record's `detail` takes. -/
inductive Raise where
  | outOfBounds (address : Nat)
  | invalidRegister (index : Byte)
  | unknownInstruction (op : Byte)
  | stackOverflow (sp : Byte)
  | stackUnderflow (sp : Byte)
  deriving DecidableEq, Repr

/-- R101: the kind of an error. -/
def Raise.kind : Raise → ErrorKind
  | .outOfBounds _ => .outOfBounds
  | .invalidRegister _ => .invalidRegister
  | .unknownInstruction _ => .unknownInstruction
  | .stackOverflow _ => .stackOverflow
  | .stackUnderflow _ => .stackUnderflow

/-- R26, R102: what the record's `detail` holds. -/
def Raise.detail : Raise → Nat
  | .outOfBounds address => address
  | .invalidRegister index => index.toNat
  | .unknownInstruction op => op.toNat
  | .stackOverflow sp => sp.toNat
  | .stackUnderflow sp => sp.toNat

/-- R101: the code of a kind on the status interface (92 D22). -/
def ErrorKind.code : ErrorKind → Nat
  | .outOfBounds => 1
  | .invalidRegister => 2
  | .unknownInstruction => 3
  | .stackOverflow => 4
  | .stackUnderflow => 5

/-- R36: `MemRead(a, 1)`; the contract `read` as an internal operation (R3). -/
def memRead (a : Nat) (s : State) : Except Raise Byte :=
  if a < memSize then .ok (s.mem.read a) else .error (.outOfBounds a)

/-- R37: `MemWrite(a, 1, v)`; out of range it stores nothing. The contract `write` as an internal operation (R3). -/
def memWrite (a : Nat) (v : Byte) (s : State) : Except Raise State :=
  if a < memSize then .ok { s with mem := s.mem.write a v } else .error (.outOfBounds a)

/-- R15: SP is a second name for R7. -/
abbrev State.sp (s : State) : Byte := s.x[7]

/-- Set R7. -/
def State.setSp (s : State) (v : Byte) : State := { s with x := s.x.set 7 v }

/-- R9, R20: `pc <- t`. -/
def State.setPc (s : State) (t : Nat) : State := { s with pc := t }

/-- R27: `emit(v)`, one byte at the end of the output log. -/
def State.emit (s : State) (v : Byte) : State := { s with out := s.out ++ [v] }

/-- Move the engine status (R25). -/
def State.setStatus (s : State) (st : Status) : State := { s with status := st }

/-- R80, R104: fault entry, the taking of an exception on this hardware. The state is the one the step began in, but
for the status, which takes the error record: pc is the opcode's address, `op` the opcode byte or none. There is
no vector, no handler, no mode, and no return from it (R107). -/
def takeFault (e : Raise) (op : Option Byte) (s : State) : State :=
  s.setStatus (.faulted ⟨e.kind, s.pc, op, e.detail⟩)

/-- R77: the pc advance, `pc + n + 1` with no modulus unless the handler set the pc itself. R58 makes the role's
count and flag the ones in the opcode's bits (`Opc.valid`): DEDUCED, assumption 13, safe. -/
def advancePc (r : Role) (s : State) : State :=
  if r.setsPc then s else s.setPc (s.pc + r.operandCount + 1)

/-- R78: after the advance, Halt moves the status to Halted. -/
def haltIf (r : Role) (s : State) : State :=
  if r = .halt then s.setStatus .halted else s

/-- R77 to R80: what follows a handler that began in `s`: advance, halt and commit, or, if it raised, fault entry
with nothing the handler wrote kept (R10). DEDUCED: the status of `s` is not looked at, as a step exists in Running
only, and the record's opcode byte is the table's for the role (assumption 6, safe). -/
def conclude (opc : Opc) (r : Role) (s : State) (h : Except Raise State) :
    Host.Outcome State Fault Refusal :=
  match h with
  | .ok t => .next (haltIf r (advancePc r t))
  | .error e => .next (takeFault e (some (opc.byte r)) s)

/-- R93, R96: the address a Push or Call stores to, one below SP. -/
def pushAddress (s : State) : Nat := s.sp.toNat - 1

/-- R93, R96: "SP ← SP - 1", failing with StackOverflow if SP would go below 0. -/
def decrementSp (s : State) : Except Raise State :=
  if s.sp = 0 then .error (.stackOverflow s.sp) else .ok (s.setSp (s.sp - 1))

/-- R94, R97: "SP ← SP + 1", failing with StackUnderflow if SP would become 256 (90 C4). -/
def incrementSp (s : State) : Except Raise State :=
  if s.sp = 0xFF#8 then .error (.stackUnderflow s.sp) else .ok (s.setSp (s.sp + 1))

end Sys2Proof.Machine
end

