-- ==== Sys2Proof/Machine/Operands.lean ====
section
/-! DEFINITION. The operand forms: a register named by a whole operand byte (R14, R62) and an immediate byte (R63).
There is no other form: no instruction takes a memory address from an operand (R38). -/

namespace Sys2Proof.Machine

/-- R14, R62: the register index an operand byte names; 8..255 name none and raise InvalidRegister. -/
def regIndex (a : Byte) : Except Raise (Fin 8) :=
  if h : a.toNat < 8 then .ok ⟨a.toNat, h⟩ else .error (.invalidRegister a)

/-- R14: `x[a]`; the contract `get` as an internal operation (R3). -/
def readReg (a : Byte) (s : State) : Except Raise Byte := do
  let r ← regIndex a
  .ok s.x[r]

/-- R14: `x[a] <- v`; the contract `set` as an internal operation (R3). -/
def writeReg (a v : Byte) (s : State) : Except Raise State := do
  let r ← regIndex a
  .ok { s with x := s.x.set r v }

/-- R63: the immediate operand is the byte itself, neither extended nor scaled. -/
def immediate (op2 : Byte) : Byte := op2

end Sys2Proof.Machine
end

