-- ==== Sys2Proof/Machine/Arithmetic.lean ====
section
/-! DEFINITION. The ALU (spec/42_arithmetic.md): Add and Multiply on unsigned bytes, modulo 256 and with no flag (R90). -/

namespace Sys2Proof.Machine

/-- R88: the exact sum, reduced modulo 256. -/
def aluAdd (va vb : Byte) : Byte := BitVec.ofNat 8 ((va.toNat + vb.toNat) % 256)

/-- R89: the exact product, reduced modulo 256; the high byte is kept nowhere. -/
def aluMultiply (va vb : Byte) : Byte := BitVec.ofNat 8 ((va.toNat * vb.toNat) % 256)

/-- R88, R89, R91: both operands come from registers, a before b, and the result goes to register a. -/
def handleAlu (f : Byte → Byte → Byte) (a b : Byte) (s : State) : Except Raise State := do
  let va ← readReg a s
  let vb ← readReg b s
  writeReg a (f va vb) s

/-- R88. -/
def handleAdd (a b : Byte) (s : State) : Except Raise State := handleAlu aluAdd a b s

/-- R88, and the advance by 3. -/
def execAdd (a b : Byte) (s : State) : Host.Outcome State Fault Refusal :=
  conclude defaultOpc .add s (handleAdd a b s)

/-- R89. -/
def handleMultiply (a b : Byte) (s : State) : Except Raise State := handleAlu aluMultiply a b s

/-- R89, and the advance by 3. -/
def execMultiply (a b : Byte) (s : State) : Host.Outcome State Fault Refusal :=
  conclude defaultOpc .multiply s (handleMultiply a b s)

end Sys2Proof.Machine
end

