-- ==== Sys2Proof/Machine/CallReturn.lean ====
section
/-! DEFINITION. Call and Return (spec/44_call_return.md), the two instructions that set the pc themselves (R56). -/

namespace Sys2Proof.Machine

/-- R96: the byte after op1. -/
def returnAddress (s : State) : Nat := s.pc + 2

/-- R96: push the return address exactly like Push, then read the target AFTER the push (so `Call R7` jumps to the
decremented SP). A return address of 256 fits no cell and raises OutOfBounds (92 D8), before the store. -/
def handleCall (a : Byte) (s : State) : Except Raise State := do
  let s' ← decrementSp s
  if 255 < returnAddress s then .error (.outOfBounds (returnAddress s))
  else do
    let s'' ← memWrite (pushAddress s) (BitVec.ofNat 8 (returnAddress s)) s'
    let t ← readReg a s''
    .ok (s''.setPc t.toNat)

/-- R96; the engine adds no offset (R77). -/
def execCall (a : Byte) (s : State) : Host.Outcome State Fault Refusal :=
  conclude defaultOpc .call s (handleCall a s)

/-- R97: pop the return address exactly like Pop, with no register written, and jump to it. -/
def handleReturn (s : State) : Except Raise State := do
  let v ← memRead s.sp.toNat s
  let s' ← incrementSp s
  .ok (s'.setPc v.toNat)

/-- R97; the engine adds no offset (R77). -/
def execReturn (s : State) : Host.Outcome State Fault Refusal :=
  conclude defaultOpc .ret s (handleReturn s)

end Sys2Proof.Machine
end

