-- ==== Sys2Proof/Machine/LoadPrintHalt.lean ====
section
/-! DEFINITION. Load-immediate, Print-register and Halt (spec/41_load_print_halt.md). A `handle…` is the handler of
R76 alone; an `exec…` is the handler with what the engine does after it (R77 to R80), under the default table. -/

namespace Sys2Proof.Machine

/-- R85: `x[a] <- imm`. -/
def handleLoad (a imm : Byte) (s : State) : Except Raise State :=
  writeReg a (immediate imm) s

/-- R85, and the advance by 3. -/
def execLoad (a imm : Byte) (s : State) : Host.Outcome State Fault Refusal :=
  conclude defaultOpc .load s (handleLoad a imm s)

/-- R86: `v <- x[a]; emit(v)`. -/
def handlePrint (a : Byte) (s : State) : Except Raise State := do
  let v ← readReg a s
  .ok (s.emit v)

/-- R86, and the advance by 2. -/
def execPrint (a : Byte) (s : State) : Host.Outcome State Fault Refusal :=
  conclude defaultOpc .print s (handlePrint a s)

/-- R87: the handler of Halt has no effect. -/
def handleHalt (s : State) : Except Raise State := .ok s

/-- R87: the advance by 1, and then the status Halted (R78). -/
def execHalt (s : State) : Host.Outcome State Fault Refusal :=
  conclude defaultOpc .halt s (handleHalt s)

end Sys2Proof.Machine
end

