-- ==== Sys2Proof/Machine/Stack.lean ====
section
/-! DEFINITION. Push and Pop (spec/43_stack.md): a descending, full stack of bytes in memory (R92). -/

namespace Sys2Proof.Machine

/-- R93: decrement SP, read the register AFTER the decrement (so `Push R7` stores the decremented SP), store. -/
def handlePush (a : Byte) (s : State) : Except Raise State := do
  let s' ← decrementSp s
  let v ← readReg a s'
  memWrite (pushAddress s) v s'

/-- R93, and the advance by 2. -/
def execPush (a : Byte) (s : State) : Host.Outcome State Fault Refusal :=
  conclude defaultOpc .push s (handlePush a s)

/-- R94: read at SP, write the register, then increment SP AS IT STANDS (so `Pop R7` leaves the popped byte plus 1).
The source's own check "SP exceeds 255 before the read" comes first and never fires (90 C4). DEDUCED: Pop R7 at
SP = 255 follows this pseudocode and not the corner case (assumption 5, unsafe). -/
def handlePop (a : Byte) (s : State) : Except Raise State :=
  if 255 < s.sp.toNat then .error (.stackUnderflow s.sp)
  else do
    let v ← memRead s.sp.toNat s
    let s' ← writeReg a v s
    incrementSp s'

/-- R94, and the advance by 2 (R84). -/
def execPop (a : Byte) (s : State) : Host.Outcome State Fault Refusal :=
  conclude defaultOpc .pop s (handlePop a s)

end Sys2Proof.Machine
end

