-- ==== Sys2Proof/Machine/Dispatch.lean ====
section
/-! DEFINITION. R76: dispatch, one arm per instruction. -/

namespace Sys2Proof.Machine

def exec (i : Instr) (s : State) : Host.Outcome State Fault Refusal :=
  match i with
  | .load a imm => Sys2Proof.Machine.execLoad a imm s
  | .print a => Sys2Proof.Machine.execPrint a s
  | .halt => Sys2Proof.Machine.execHalt s
  | .add a b => Sys2Proof.Machine.execAdd a b s
  | .multiply a b => Sys2Proof.Machine.execMultiply a b s
  | .push a => Sys2Proof.Machine.execPush a s
  | .pop a => Sys2Proof.Machine.execPop a s
  | .call a => Sys2Proof.Machine.execCall a s
  | .ret => Sys2Proof.Machine.execReturn s

end Sys2Proof.Machine
end

