-- ==== Sys2Proof/Machine/Engine.lean ====
section
/-! DEFINITION. The engine (spec/40_engine.md) for ANY opcode table that R58 accepts (R7): fetch and decode,
and one whole step (R79). The fixed table's `exec` and `step` stand in Dispatch.lean and Step.lean. -/

namespace Sys2Proof.Machine

/-- R76: the handler of each role, which no opcode table changes (R7). -/
def handle (i : Instr) (s : State) : Except Raise State :=
  match i with
  | .load a imm => handleLoad a imm s
  | .print a => handlePrint a s
  | .halt => handleHalt s
  | .add a b => handleAdd a b s
  | .multiply a b => handleMultiply a b s
  | .push a => handlePush a s
  | .pop a => handlePop a s
  | .call a => handleCall a s
  | .ret => handleReturn s

/-- R76 to R80 under a given table: `exec` for any `OPC`. -/
def execWith (opc : Opc) (i : Instr) (s : State) : Host.Outcome State Fault Refusal :=
  conclude opc i.role s (handle i s)

/-- R72 to R74: fetch, decode and operand fetch at the pc, from the machine's one memory (R46). -/
def fetch (opc : Opc) (s : State) : Except DecodeError Instr :=
  decodeFrom opc fun k => s.mem.byteAt? (s.pc + k)

/-- R3, R79: one step, which is one whole instruction and atomic. It exists only while the status is Running (R71); `run` is what executes the decoded
instruction. A failed fetch is a fatal error with the record R26 gives it. DEDUCED: that no step exists is a named fault
(assumption 4, safe). -/
def stepBy (opc : Opc) (run : Instr → State → Host.Outcome State Fault Refusal) (s : State) :
    Host.Outcome State Fault Refusal :=
  match s.status with
  | .idle => .fault .idle
  | .halted => .fault .halted
  | .faulted e => .fault (.faulted e)
  | .running =>
    match fetch opc s with
    | .ok i => run i s
    | .error .noOpcode => .next (takeFault (.outOfBounds s.pc) none s)
    | .error (.unknownOpcode op) => .next (takeFault (.unknownInstruction op) (some op) s)
    | .error (.noOperand op k) => .next (takeFault (.outOfBounds (s.pc + k)) (some op) s)

/-- R7, R79: the step of the machine configured with a given table. -/
def stepWith (opc : Opc) (s : State) : Host.Outcome State Fault Refusal :=
  stepBy opc (execWith opc) s

/-- The bytes of memory from an address to the end of memory, in order (R40). -/
def bytesFrom (m : Memory) (a : Nat) : List Byte :=
  (List.range (memSize - a)).map fun k => m.read (a + k)

/-- Store bytes at ascending addresses from `a`; none past the end of memory. -/
def placeBytes (m : Memory) (a : Nat) : List Byte → Memory
  | [] => m
  | v :: vs => placeBytes (if a < memSize then m.write a v else m) (a + 1) vs

/-- Execute instructions one after another, each from the state the one before left, and stop where one stops or
faults the machine: for claims about sequences of Pushes or Calls (R92, R99). -/
def execSeq (run : Instr → State → Host.Outcome State Fault Refusal) :
    List Instr → State → Host.Outcome State Fault Refusal
  | [], s => .next s
  | i :: is, s =>
    match run i s with
    | .next t => execSeq run is t
    | .fault r => .fault r
    | .refused r => .refused r

end Sys2Proof.Machine
end

