-- ==== Sys2Proof/Machine/Step.lean ====
section
/-! DEFINITION. The machine's step, under the default opcode table (R57, R79). -/

namespace Sys2Proof.Machine

/-- R79: one whole instruction, fetched at the pc, while the status is Running (R71). -/
def step (s : State) : Host.Outcome State Fault Refusal := stepBy defaultOpc exec s

/-- `s` with the instruction whose bits are `w` stored at the pc and the status Running: it stands for the loads and
the `run()` of the host (R31, R47, R119), without which no step exists (assumption 8). -/
def State.withFetchWord (s : State) (nbits w : Nat) : State :=
  { s with mem := placeBytes s.mem s.pc (tableBytes nbits w), status := .running }

end Sys2Proof.Machine
end

