-- ==== Sys2Proof/Machine/Interface.lean ====
section
/-! DEFINITION. The block's transaction-level interface (R3; spec/10_state.md R31 to R34), the loader boundary (R47, R48,
R50) and boot (R119). -/

namespace Sys2Proof.Machine

/-- Why an interface operation does not happen. It changes nothing then (R32). -/
inductive HostError where
  /-- R32, 93 U10: a `load` or a `run()` outside Idle. -/
  | refused
  /-- R32: a `load` at an address above 255, at the loader boundary; the status stays Idle. -/
  | outOfBounds (address : Nat)
  deriving DecidableEq, Repr

/-- R31, R32, R47: `load(addr, byte)`, allowed in Idle; it is `MemWrite(addr, 1, byte)`. -/
def hostLoad (a : Nat) (v : Byte) (s : State) : Except HostError State :=
  match s.status with
  | .idle =>
    match memWrite a v s with
    | .ok t => .ok t
    | .error _ => .error (.outOfBounds a)
  | .running | .halted | .faulted _ => .error .refused

/-- R31, R33, R118: `run()`, allowed in Idle; it moves the status to Running and does nothing else. -/
def hostRun (s : State) : Except HostError State :=
  match s.status with
  | .idle => .ok (s.setStatus .running)
  | .running | .halted | .faulted _ => .error .refused

/-- R31: what can happen to the block. -/
inductive Event where
  | load (address : Nat) (v : Byte)
  | run
  | step
  deriving DecidableEq, Repr

/-- The state after an event, for the machine configured with a table (R7): an operation that is refused, and a step
that does not exist, leave it as it was. -/
def State.afterWith (opc : Opc) (s : State) : Event → State
  | .load a v =>
    match hostLoad a v s with
    | .ok t => t
    | .error _ => s
  | .run =>
    match hostRun s with
    | .ok t => t
    | .error _ => s
  | .step =>
    match stepWith opc s with
    | .next t => t
    | .fault _ | .refused _ => s

/-- The state after an event, under the default table. -/
def State.after (s : State) (ev : Event) : State := s.afterWith defaultOpc ev

/-- R47: the loader's writes, one a byte at addresses rising from `a`. At the first write that fails the loader
aborts (R48): the writes before it stand, and the error is reported (DEDUCED, assumption 11, safe). -/
def loadFrom (a : Nat) : List Byte → State → State × Option HostError
  | [], s => (s, none)
  | v :: vs, s =>
    match hostLoad a v s with
    | .ok t => loadFrom (a + 1) vs t
    | .error e => (s, some e)

/-- R119: load an image from address 0, then `run()`; if the loader aborts, `run()` is never issued (R48). -/
def boot (image : List Byte) (s : State) : State × Option HostError :=
  match loadFrom 0 image s with
  | (t, some e) => (t, some e)
  | (t, none) =>
    match hostRun t with
    | .ok u => (u, none)
    | .error e => (t, some e)

/-- R34: all the host can observe. -/
structure Observation where
  out : List Byte
  status : Status
  deriving DecidableEq, Repr

/-- R27, R31, R34: the output log and the status with its error record, at any time; not registers, memory or pc. -/
def State.observe (s : State) : Observation := ⟨s.out, s.status⟩

/-- R101: the code of the error on the status interface, when there is one (92 D22). -/
def Observation.errorCode (o : Observation) : Option Nat :=
  match o.status with
  | .faulted e => some e.kind.code
  | .idle | .running | .halted => none

/-- R81, R82: how a run under fuel ends; running out of fuel is distinct from Halted and Faulted. -/
inductive RunResult where
  /-- R81: the status is Halted or Faulted; the host reads `observe` of this state. -/
  | ended (s : State)
  /-- R82: still Running when the fuel was used up. -/
  | outOfFuel (s : State)
  /-- The status is Idle: no step exists (R71). -/
  | notStarted
  deriving DecidableEq, Repr

/-- What a state is when no further step is taken. -/
def State.verdict (s : State) : RunResult :=
  match s.status with
  | .idle => .notStarted
  | .running => .outOfFuel s
  | .halted | .faulted _ => .ended s

/-- R81: "Its result is the output log, together with the status and error record"; only a run that ended has one. -/
def RunResult.result : RunResult → Option Observation
  | .ended s => some s.observe
  | .outOfFuel _ | .notStarted => none

/-- R33, R82: take steps while there are any, at most `fuel` of them, for the machine configured with a table (R7).
The machine itself has no fuel. -/
def runForWith (opc : Opc) : Nat → State → RunResult
  | 0, s => s.verdict
  | fuel + 1, s =>
    match stepWith opc s with
    | .next t => runForWith opc fuel t
    | .fault _ | .refused _ => s.verdict

/-- A run under fuel, under the default table. -/
def runFor (fuel : Nat) (s : State) : RunResult := runForWith defaultOpc fuel s

end Sys2Proof.Machine
end

