-- ==== Sys2Proof/Machine/ImageText.lean ====
section
/-! DEFINITION. The program image as text (R49, R69) and the printed output (R34). Both are the host's, outside the
block (R5); they are modelled so that an image can be followed from its text to the machine it starts (R119). -/

namespace Sys2Proof.Machine

/-- Split at every occurrence of a character. -/
def splitAtChar (c : Char) : List Char → List (List Char)
  | [] => [[]]
  | d :: ds =>
    if d = c then [] :: splitAtChar c ds
    else match splitAtChar c ds with
      | [] => [[d]]
      | w :: ws => (d :: w) :: ws

/-- DESIGN CHOICE: white space within a line is the space, the tab and the carriage return (assumption 10). -/
def isBlank (c : Char) : Bool := c = ' ' || c = '\t' || c = '\r'

/-- R49, R66: "whitespace around the literal is ignored". -/
def trimBlanks (w : List Char) : List Char :=
  ((w.dropWhile isBlank).reverse.dropWhile isBlank).reverse

/-- The value of a digit character in a base up to 16, or none. -/
def digitValue (base : Nat) (c : Char) : Option Nat :=
  let n := c.toNat
  let v := if 48 ≤ n ∧ n ≤ 57 then n - 48
    else if 97 ≤ n ∧ n ≤ 102 then n - 87
    else if 65 ≤ n ∧ n ≤ 70 then n - 55
    else base
  if v < base then some v else none

/-- The number a run of digits writes after `acc`, most significant digit first. -/
def digitsValue (base : Nat) (acc : Nat) : List Char → Option Nat
  | [] => some acc
  | c :: cs => do
    let d ← digitValue base c
    digitsValue base (acc * base + d) cs

/-- The number a nonempty run of digits writes. -/
def numberValue (base : Nat) (w : List Char) : Option Nat :=
  if w = [] then none else digitsValue base 0 w

/-- R49, R101: the loader's errors. -/
inductive ImageError where
  /-- "a fatal `InvalidEncoding` error reported with the offending token". -/
  | invalidEncoding (token : List Char)
  deriving DecidableEq, Repr

/-- R49: one line: nothing for a blank or comment-only line, else the byte of a binary literal of at most 8 digits.
Any other text before a `#` is InvalidEncoding (92 D16). -/
def parseImageLine (line : List Char) : Except ImageError (Option Byte) :=
  let token := trimBlanks (line.takeWhile (· ≠ '#'))
  if token = [] then .ok none
  else if 8 < token.length then .error (.invalidEncoding token)
  else match numberValue 2 token with
    | some n => .ok (some (BitVec.ofNat 8 n))
    | none => .error (.invalidEncoding token)

/-- R49: the image bytes of a list of lines; blank and comment-only lines are skipped. -/
def parseImageLines : List (List Char) → Except ImageError (List Byte)
  | [] => .ok []
  | line :: lines => do
    let b ← parseImageLine line
    let bs ← parseImageLines lines
    .ok (b.toList ++ bs)

/-- R49: the image bytes of a whole text. -/
def parseImage (text : List Char) : Except ImageError (List Byte) :=
  parseImageLines (splitAtChar '\n' text)

/-- R69: a byte as 8 binary digits, bit 7 first. -/
def binaryDigits (v : Byte) : List Char :=
  (List.range 8).map fun k => if v.getLsbD (7 - k) then '1' else '0'

/-- R69: the image text of an instruction, its bytes in order, one a line. -/
def imageLines (opc : Opc) (i : Instr) : List (List Char) :=
  (encode opc i).map binaryDigits

/-- R48, R49, R119: boot from image text. A malformed image loads nothing, and `run()` is not issued. -/
def bootText (text : List Char) (s : State) : Except ImageError (State × Option HostError) := do
  let image ← parseImage text
  .ok (boot image s)

/-- A decimal digit's character. -/
def digitChar (d : Nat) : Char := Char.ofNat (48 + d % 10)

/-- R34, R66: a byte in decimal, with no leading zero. -/
def decimalDigits (v : Byte) : List Char :=
  let n := v.toNat
  if n < 10 then [digitChar n]
  else if n < 100 then [digitChar (n / 10), digitChar n]
  else [digitChar (n / 100), digitChar (n / 10), digitChar n]

/-- R34, R86: what the host prints of the output log, "using decimal formatting, one value per line". Line ends are
the host's (92 D12). -/
def Observation.lines (o : Observation) : List (List Char) := o.out.map decimalDigits

end Sys2Proof.Machine
end

