-- ==== Sys2Proof/Machine/Assembly.lean ====
section
/-! DEFINITION. The assembly syntax (R66, R67, R68): reading and writing the text of instructions. Text only: the
bytes are what the machine runs (92 D17). DESIGN CHOICE, where R66 is silent: assumption 9. There are no pseudo-instructions, labels or directives. -/

namespace Sys2Proof.Machine

/-- R66: the mnemonic of a role, the source's own spelling. -/
def Role.mnemonic : Role → List Char
  | .load => "Load".toList
  | .print => "Print".toList
  | .halt => "Halt".toList
  | .add => "Add".toList
  | .multiply => "Multiply".toList
  | .push => "Push".toList
  | .pop => "Pop".toList
  | .call => "Call".toList
  | .ret => "Return".toList

/-- R57, R66: the second name of a role, from the LS-8 (`[from general knowledge, not in source]`). -/
def Role.secondName : Role → List Char
  | .load => "LDI".toList
  | .print => "PRN".toList
  | .halt => "HLT".toList
  | .add => "ADD".toList
  | .multiply => "MUL".toList
  | .push => "PUSH".toList
  | .pop => "POP".toList
  | .call => "CALL".toList
  | .ret => "RET".toList

/-- The lower-case form of an ASCII letter. -/
def lowerChar (c : Char) : Char :=
  if 65 ≤ c.toNat ∧ c.toNat ≤ 90 then Char.ofNat (c.toNat + 32) else c

/-- R66: "Mnemonics are case-insensitive." -/
def sameName (v w : List Char) : Bool := v.map lowerChar = w.map lowerChar

/-- The role a mnemonic names, by either of its names. -/
def roleNamed? (w : List Char) : Option Role :=
  Role.all.find? fun r => sameName w (Role.mnemonic r) || sameName w (Role.secondName r)

/-- Why a text is no instruction. -/
inductive AsmError where
  /-- No role has this name. -/
  | unknownMnemonic (name : List Char)
  /-- R67: a register operand must be R0 to R7 or SP. -/
  | badRegister (operand : List Char)
  /-- R63, R66: an immediate is a decimal, 0x or 0b number, 0..255. -/
  | badImmediate (operand : List Char)
  /-- R66: the role takes another number of operands. -/
  | wrongOperands (given : Nat)
  deriving DecidableEq, Repr

/-- R67: `R0` to `R7`, with `SP` a second name of `R7`. -/
def parseRegister (w : List Char) : Except AsmError Byte :=
  match w with
  | ['S', 'P'] => .ok 7
  | ['R', d] =>
    match digitValue 8 d with
    | some n => .ok (BitVec.ofNat 8 n)
    | none => .error (.badRegister w)
  | _ => .error (.badRegister w)

/-- R66: the number an immediate writes: decimal, or `0x…` or `0b…`. -/
def immediateNumber (w : List Char) : Option Nat :=
  match w with
  | '0' :: 'x' :: ds => numberValue 16 ds
  | '0' :: 'b' :: ds => numberValue 2 ds
  | ds => numberValue 10 ds

/-- R63: an immediate fits a byte. -/
def parseImmediate (w : List Char) : Except AsmError Byte :=
  match immediateNumber w with
  | some n => if n ≤ 255 then .ok (BitVec.ofNat 8 n) else .error (.badImmediate w)
  | none => .error (.badImmediate w)

/-- R66: the instruction a role and its operand texts write. -/
def assembleOperands (r : Role) (ops : List (List Char)) : Except AsmError Instr :=
  match r, ops with
  | .load, [a, imm] => do .ok (.load (← parseRegister a) (← parseImmediate imm))
  | .print, [a] => do .ok (.print (← parseRegister a))
  | .halt, [] => .ok .halt
  | .add, [a, b] => do .ok (.add (← parseRegister a) (← parseRegister b))
  | .multiply, [a, b] => do .ok (.multiply (← parseRegister a) (← parseRegister b))
  | .push, [a] => do .ok (.push (← parseRegister a))
  | .pop, [a] => do .ok (.pop (← parseRegister a))
  | .call, [a] => do .ok (.call (← parseRegister a))
  | .ret, [] => .ok .ret
  | _, _ => .error (.wrongOperands ops.length)

/-- R66: the operands, separated by a comma. -/
def splitOperands (w : List Char) : List (List Char) :=
  if w = [] then [] else (splitAtChar ',' w).map trimBlanks

/-- R66: one instruction: a role name, then its operands. -/
def parseInstr (text : List Char) : Except AsmError Instr :=
  let w := trimBlanks text
  let name := w.takeWhile (fun c => !isBlank c)
  match roleNamed? name with
  | none => .error (.unknownMnemonic name)
  | some r => assembleOperands r (splitOperands (trimBlanks (w.dropWhile (fun c => !isBlank c))))

/-- The instructions of a list of texts; a blank text is skipped. -/
def parseInstrs : List (List Char) → Except AsmError (List Instr)
  | [] => .ok []
  | w :: ws => do
    if trimBlanks w = [] then parseInstrs ws
    else
      let i ← parseInstr w
      let is ← parseInstrs ws
      .ok (i :: is)

/-- R66: a program, its instructions on lines or separated by `;` on one line. -/
def parseProgram (text : List Char) : Except AsmError (List Instr) :=
  parseInstrs ((splitAtChar '\n' text).flatMap (splitAtChar ';'))

/-- R66, R69: the image bytes of a program, its instructions' bytes in order. -/
def assemble (opc : Opc) (text : List Char) : Except AsmError (List Byte) := do
  let is ← parseProgram text
  .ok (is.flatMap (encode opc))

/-- R66: `R<d>`. -/
def registerText (a : Byte) : List Char := ['R', digitChar a.toNat]

/-- R66: the text of an instruction whose register operands name registers (`Instr.wellFormed`, R67). -/
def instrText : Instr → List Char
  | .load a imm => "Load ".toList ++ registerText a ++ ", ".toList ++ decimalDigits imm
  | .print a => "Print ".toList ++ registerText a
  | .halt => "Halt".toList
  | .add a b => "Add ".toList ++ registerText a ++ ", ".toList ++ registerText b
  | .multiply a b => "Multiply ".toList ++ registerText a ++ ", ".toList ++ registerText b
  | .push a => "Push ".toList ++ registerText a
  | .pop a => "Pop ".toList ++ registerText a
  | .call a => "Call ".toList ++ registerText a
  | .ret => "Return".toList

end Sys2Proof.Machine
end

