-- ==== Sys2Proof/Machine/Flags.lean ====
section
/-! DEFINITION. The flags: "The hardware has no status flags, condition codes or predicates", and no instruction
computes one (R22). The only status bit is the Running flag, read from the engine status (R24). -/

namespace Sys2Proof.Machine

/-- R22, R24: the Running flag is true exactly when the status is Running. -/
def State.runningFlag (s : State) : Bool := s.status = .running

/-- The machine has faulted (R24). -/
def Status.isFaulted : Status → Bool
  | .faulted _ => true
  | .idle | .running | .halted => false

end Sys2Proof.Machine
end

