-- ==== Sys2Proof/Safety.lean ====
section
/-! DEFINITION. The terms claims use: the state a fatal error leaves, and the invariant of a state that a run may
reach. -/

namespace Sys2Proof.Machine

/-- R80, R104: `s` after a fatal error, written out: only the status changes, and the record's pc is the one of `s`. -/
def State.faultedBy (s : State) (kind : ErrorKind) (op : Option Byte) (detail : Nat) : State :=
  { s with status := .faulted { kind := kind, pc := s.pc, opcode := op, detail := detail } }

/-- R102: what the record of a kind says in a machine whose pc is in range, configured with a table. An OutOfBounds
detail is always 256: the opcode fetch at 256, an operand fetch or a return address just past 255. -/
def ErrorRecord.fits (opc : Opc) (e : ErrorRecord) (s : State) : Prop :=
  e.pc = s.pc ∧
  e.opcode = s.mem.byteAt? s.pc ∧
  match e.kind with
  | .outOfBounds => e.detail = 256 ∧ 253 < s.pc
  | .invalidRegister =>
    8 ≤ e.detail ∧
    (e.detail = (s.mem.read (s.pc + 1)).toNat ∨ e.detail = (s.mem.read (s.pc + 2)).toNat)
  | .unknownInstruction =>
    ∃ op, e.opcode = some op ∧ e.detail = op.toNat ∧ opc.role? op = none
  | .stackOverflow => e.detail = 0 ∧ s.x[7] = 0
  | .stackUnderflow => e.detail = 255

/-- What every state of a machine that starts at construction satisfies: memory in its canonical form, the pc in
0..256 (R19), and after a fault a record that says what is in the machine (R26, R102). -/
def State.InvWith (opc : Opc) (s : State) : Prop :=
  s.mem.wf = true ∧ s.pc ≤ 256 ∧
  match s.status with
  | .faulted e => e.fits opc s
  | .idle | .running | .halted => True

/-- The invariant under the default table. -/
abbrev State.Inv (s : State) : Prop := s.InvWith defaultOpc

/-- `StepsTo opc n s t`: exactly `n` steps of the machine configured with `opc` lead from `s` to `t` (R79). -/
inductive StepsTo (opc : Opc) : Nat → State → State → Prop where
  | refl (s : State) : StepsTo opc 0 s s
  | next {n : Nat} {s t u : State} : stepWith opc s = .next t → StepsTo opc n t u → StepsTo opc (n + 1) s u

/-- R81: no step leaves the status: it is Halted or Faulted. -/
def Status.isTerminal (st : Status) : Prop := st = .halted ∨ st.isFaulted = true

end Sys2Proof.Machine
end

