-- ==== Sys2Proof/Certificates/Slice0/Obligations.lean ====
section
/-! DEFINITION. The statements for the provers, from the numbered rules of spec/. The statements of one instruction
"at the step" hold for every opcode table the machine accepts (R7: an `Opc` is a table with the proof that it passes
R58); those "at exec" are for the default table, whose bytes only the record of an error shows. -/

open Sys2Proof Sys2Proof.Machine

/-! ### Encoding and decoding -/

/-- R53, R54, R61: for every instruction, with every operand byte, and every accepted table, the decoder gives back
what was encoded and leaves the bytes after it. -/
def Obligations.DecodeOfEncode : Prop :=
  ∀ (opc : Opc) (i : Instr) (rest : List Byte),
    decode opc (encode opc i ++ rest) = .ok (i, rest)

/-- R53, R65: bytes that decode are the encoding of what they decode to, followed by the rest: each word has one
meaning, under every accepted table. -/
def Obligations.EncodeOfDecode : Prop :=
  ∀ (opc : Opc) (bytes : List Byte) (i : Instr) (rest : List Byte),
    decode opc bytes = .ok (i, rest) → bytes = encode opc i ++ rest

/-- R57: one word of each instruction, written out from R57's bit patterns and R66's operand order. The byte values
are PRESUMED (general knowledge, assumption 3). -/
def Obligations.SpecWordsDecode : Prop :=
  decode defaultOpc [0b10000010#8, 0x03#8, 0xFF#8] = .ok (.load 3 255, []) ∧
  decode defaultOpc [0b01000111#8, 0x05#8] = .ok (.print 5, []) ∧
  decode defaultOpc [0b00000001#8] = .ok (.halt, []) ∧
  decode defaultOpc [0b10100000#8, 0x00#8, 0x01#8] = .ok (.add 0 1, []) ∧
  decode defaultOpc [0b10100010#8, 0x02#8, 0x04#8] = .ok (.multiply 2 4, []) ∧
  decode defaultOpc [0b01000101#8, 0x07#8] = .ok (.push 7, []) ∧
  decode defaultOpc [0b01000110#8, 0x08#8] = .ok (.pop 8, []) ∧
  decode defaultOpc [0b01010000#8, 0x01#8] = .ok (.call 1, []) ∧
  decode defaultOpc [0b00010001#8] = .ok (.ret, [])

/-- R7, R58: a table is accepted exactly when it passes the three checks, and then it is the table the machine is
configured with; the default one is accepted; any other is rejected, and there is no machine configured with it. -/
def Obligations.OpcTableChecks : Prop :=
  (∀ t : OpcTable, (∃ opc, t.configure = .ok opc) ↔
    (∀ r r' : Role, t.byte r = t.byte r' → r = r') ∧
    (∀ r : Role, (t.byte r).toNat / 64 = r.operandCount) ∧
    (∀ r : Role, (t.byte r).getLsbD 4 = r.setsPc)) ∧
  (∀ (t : OpcTable) (opc : Opc), t.configure = .ok opc ↔ opc.table = t) ∧
  (∀ t : OpcTable, (∃ e, t.configure = .error e) ↔ ∀ opc : Opc, opc.table ≠ t) ∧
  defaultOpc.table.configure = .ok defaultOpc

/-- R60: fetching a byte that is in no row of the table raises UnknownInstruction with the byte and the pc, at every
address, 254 and 255 among them; under the default table 247 bytes are such. -/
def Obligations.IllegalOpcodeFaults : Prop :=
  (∀ (opc : Opc) (s : State) (op : Byte), s.status = .running →
    s.pc ≤ 255 → s.mem.read s.pc = op → (∀ r : Role, opc.byte r ≠ op) →
    stepWith opc s = .next (s.faultedBy .unknownInstruction (some op) op.toNat)) ∧
  ((List.range 256).filter fun n =>
    Role.all.all fun r => decide (defaultOpc.byte r ≠ BitVec.ofNat 8 n)).length = 247

/-! ### The engine -/

/-- R72 to R74: a step's fetches and checks in their order, for every accepted table; an instruction with n = 0 reads no
operand byte, so it runs at address 255 too. -/
def Obligations.StepFetchOrder : Prop :=
  ∀ (opc : Opc) (s : State), s.status = .running →
    stepWith opc s =
      if 255 < s.pc then .next (s.faultedBy .outOfBounds none s.pc)
      else match opc.role? (s.mem.read s.pc) with
        | none => .next (s.faultedBy .unknownInstruction (some (s.mem.read s.pc)) (s.mem.read s.pc).toNat)
        | some r =>
          if 1 ≤ (s.mem.read s.pc).toNat / 64 ∧ 255 < s.pc + 1 then
            .next (s.faultedBy .outOfBounds (some (s.mem.read s.pc)) (s.pc + 1))
          else if 2 ≤ (s.mem.read s.pc).toNat / 64 ∧ 255 < s.pc + 2 then
            .next (s.faultedBy .outOfBounds (some (s.mem.read s.pc)) (s.pc + 2))
          else execWith opc (Instr.ofRole r (s.mem.read (s.pc + 1)) (s.mem.read (s.pc + 2))) s

/-- R79: when the bytes from the pc to the end of memory decode to an instruction, the step is that instruction's
exec, and nothing is added around it: exec itself advances the pc (R77). -/
def Obligations.StepRunsDecoded : Prop :=
  ∀ (s : State) (i : Instr) (rest : List Byte), s.status = .running →
    decode defaultOpc (bytesFrom s.mem s.pc) = .ok (i, rest) → step s = exec i s

/-- R24, R71: a step exists exactly while the status is Running, which is when the Running flag is true; then it ends
in a next state, by completing or by fault entry. -/
def Obligations.StepExactlyWhenRunning : Prop :=
  ∀ s : State, ((∃ t, step s = .next t) ↔ s.status = .running) ∧ (s.runningFlag = true ↔ s.status = .running)

/-- R7: the model's step is the step of the machine configured with the default table. -/
def Obligations.StepIsConfiguredStep : Prop :=
  ∀ s : State, step s = stepWith defaultOpc s

/-- R7: every rule is written in role names. Under any table an instruction does what it does under the default one,
but for the opcode byte in the record of an error. -/
def Obligations.OpcTableOnlyInRecord : Prop :=
  ∀ (opc : Opc) (i : Instr) (s : State),
    (∃ t, exec i s = .next t ∧ execWith opc i s = .next t) ∨
    (∃ kind detail,
      exec i s = .next (s.faultedBy kind (some (defaultOpc.byte i.role)) detail) ∧
      execWith opc i s = .next (s.faultedBy kind (some (opc.byte i.role)) detail))

/-- R10, R80, R104: a step that faults changes nothing but the status, and its record holds the pc of the state it
began in and the opcode byte there, or none when the opcode fetch itself faulted. -/
def Obligations.FaultKeepsEverything : Prop :=
  ∀ (s t : State) (e : ErrorRecord), s.status = .running → step s = .next t → t.status = .faulted e →
    t = { s with status := .faulted e } ∧ e.pc = s.pc ∧
    e.opcode = if s.pc ≤ 255 then some (s.mem.read s.pc) else none

/-- R77, R83: the pc mux, for every instruction. -/
def Obligations.PcMux : Prop :=
  ∀ (i : Instr) (s t : State), s.status = .running → exec i s = .next t →
    (t.status.isFaulted = true → t.pc = s.pc) ∧
    (t.status.isFaulted = false →
      match i with
      | .halt => t.pc = s.pc + 1
      | .print _ | .push _ | .pop _ => t.pc = s.pc + 2
      | .load _ _ | .add _ _ | .multiply _ _ => t.pc = s.pc + 3
      | .call a => ∃ h : a.toNat < 8, t.pc = ((s.x.set 7 (s.x[7] - 1))[a.toNat]).toNat
      | .ret => t.pc = (s.mem.read s.x[7].toNat).toNat)

/-- R78: Halt leaves pc = h + 1 and the status Halted, where the loop ends, and Halted is reached only by executing
Halt. -/
def Obligations.HaltedOnlyByHalt : Prop :=
  (∀ (s : State), s.status = .running → s.pc ≤ 255 → s.mem.read s.pc = defaultOpc.byte .halt →
    ∃ t, step s = .next t ∧ t.status = .halted ∧ t.pc = s.pc + 1 ∧ step t = .fault .halted) ∧
  (∀ (s t : State), step s = .next t → t.status = .halted →
    ∃ rest, decode defaultOpc (bytesFrom s.mem s.pc) = .ok (.halt, rest))

/-! ### What each instruction does (exec, default table) -/

/-- R85: Load writes the immediate byte unchanged, to SP too when a = 7, and the pc advances by 3. -/
def Obligations.LoadWritesRegister : Prop :=
  ∀ (a imm : Byte) (s : State) (h : a.toNat < 8),
    exec (.load a imm) s = .next { s with x := s.x.set a.toNat imm h, pc := s.pc + 3 }

/-- R86: Print appends the register's byte to the output log, and the pc advances by 2. -/
def Obligations.PrintEmitsRegister : Prop :=
  ∀ (a : Byte) (s : State) (_h : a.toNat < 8),
    exec (.print a) s = .next { s with out := s.out ++ [s.x[a.toNat]], pc := s.pc + 2 }

/-- R87: Halt advances the pc by 1, at address 255 too, and halts. -/
def Obligations.HaltStops : Prop :=
  ∀ s : State, exec .halt s = .next { s with pc := s.pc + 1, status := .halted }

/-- R88: Add writes the sum modulo 256 to register a; a may be b, and either may be SP. -/
def Obligations.AddWrapsModulo256 : Prop :=
  ∀ (a b : Byte) (s : State) (h : a.toNat < 8) (_h' : b.toNat < 8),
    exec (.add a b) s = .next { s with
      x := s.x.set a.toNat (BitVec.ofNat 8 ((s.x[a.toNat].toNat + s.x[b.toNat].toNat) % 256)) h
      pc := s.pc + 3 }

/-- R89: Multiply writes the product modulo 256 to register a; the high byte is kept nowhere. -/
def Obligations.MultiplyWrapsModulo256 : Prop :=
  ∀ (a b : Byte) (s : State) (h : a.toNat < 8) (_h' : b.toNat < 8),
    exec (.multiply a b) s = .next { s with
      x := s.x.set a.toNat (BitVec.ofNat 8 ((s.x[a.toNat].toNat * s.x[b.toNat].toNat) % 256)) h
      pc := s.pc + 3 }

/-- R93: Push decrements SP and stores the register, as it stands AFTER the decrement, at the new SP. -/
def Obligations.PushStoresBelowSp : Prop :=
  ∀ (a : Byte) (s : State) (_h : a.toNat < 8), s.x[7] ≠ 0 →
    exec (.push a) s = .next { s with
      x := s.x.set 7 (s.x[7] - 1)
      mem := s.mem.write (s.x[7].toNat - 1) (s.x.set 7 (s.x[7] - 1))[a.toNat]
      pc := s.pc + 2 }

/-- R94: Pop writes the byte at SP to the register and then increments SP as it stands AFTER that write; memory keeps
the popped byte. It completes when the SP to be incremented is not 255 (90 C4). For Pop R7 at SP = 255 this is the
pseudocode's reading (assumption 5). -/
def Obligations.PopLoadsAtSp : Prop :=
  ∀ (a : Byte) (s : State) (h : a.toNat < 8),
    (s.x.set a.toNat (s.mem.read s.x[7].toNat) h)[7] ≠ 0xFF#8 →
    exec (.pop a) s = .next { s with
      x := (s.x.set a.toNat (s.mem.read s.x[7].toNat) h).set 7
        ((s.x.set a.toNat (s.mem.read s.x[7].toNat) h)[7] + 1)
      pc := s.pc + 2 }

/-- R96: Call pushes pc + 2 and jumps to the register as it stands AFTER the push. -/
def Obligations.CallPushesAndJumps : Prop :=
  ∀ (a : Byte) (s : State) (_h : a.toNat < 8), s.x[7] ≠ 0 → s.pc + 2 ≤ 255 →
    exec (.call a) s = .next { s with
      x := s.x.set 7 (s.x[7] - 1)
      mem := s.mem.write (s.x[7].toNat - 1) (BitVec.ofNat 8 (s.pc + 2))
      pc := ((s.x.set 7 (s.x[7] - 1))[a.toNat]).toNat }

/-- R97: Return pops the byte at SP into the pc, whoever put it there. -/
def Obligations.ReturnPopsPc : Prop :=
  ∀ s : State, s.x[7] ≠ 0xFF#8 →
    exec .ret s = .next { s with
      x := s.x.set 7 (s.x[7] + 1)
      pc := (s.mem.read s.x[7].toNat).toNat }

/-! ### The whole rule of each instruction (one step, any accepted table) -/

/-- R85: one step at a Load, with every exception in its order. -/
def Obligations.LoadStep : Prop :=
  ∀ (opc : Opc) (s : State), s.status = .running → s.pc ≤ 255 →
    s.mem.read s.pc = opc.byte .load →
    stepWith opc s = .next
      (if 254 ≤ s.pc then s.faultedBy .outOfBounds (some (opc.byte .load)) 256
      else if h : (s.mem.read (s.pc + 1)).toNat < 8 then
        { s with x := s.x.set (s.mem.read (s.pc + 1)).toNat (s.mem.read (s.pc + 2)) h, pc := s.pc + 3 }
      else s.faultedBy .invalidRegister (some (opc.byte .load)) (s.mem.read (s.pc + 1)).toNat)

/-- R86: one step at a Print, with every exception in its order; nothing is emitted when it faults. -/
def Obligations.PrintStep : Prop :=
  ∀ (opc : Opc) (s : State), s.status = .running → s.pc ≤ 255 →
    s.mem.read s.pc = opc.byte .print →
    stepWith opc s = .next
      (if s.pc = 255 then s.faultedBy .outOfBounds (some (opc.byte .print)) 256
      else if h : (s.mem.read (s.pc + 1)).toNat < 8 then
        { s with out := s.out ++ [s.x[(s.mem.read (s.pc + 1)).toNat]], pc := s.pc + 2 }
      else s.faultedBy .invalidRegister (some (opc.byte .print)) (s.mem.read (s.pc + 1)).toNat)

/-- R87: one step at a Halt, at every address up to 255; it raises nothing. -/
def Obligations.HaltStep : Prop :=
  ∀ (opc : Opc) (s : State), s.status = .running → s.pc ≤ 255 →
    s.mem.read s.pc = opc.byte .halt →
    stepWith opc s = .next { s with pc := s.pc + 1, status := .halted }

/-- R88: one step at an Add, with every exception in its order: if both operands name no register, the record
reports a. -/
def Obligations.AddStep : Prop :=
  ∀ (opc : Opc) (s : State), s.status = .running → s.pc ≤ 255 →
    s.mem.read s.pc = opc.byte .add →
    stepWith opc s = .next
      (if 254 ≤ s.pc then s.faultedBy .outOfBounds (some (opc.byte .add)) 256
      else if h : (s.mem.read (s.pc + 1)).toNat < 8 then
        if _h' : (s.mem.read (s.pc + 2)).toNat < 8 then
          { s with
            x := s.x.set (s.mem.read (s.pc + 1)).toNat (BitVec.ofNat 8
              ((s.x[(s.mem.read (s.pc + 1)).toNat].toNat + s.x[(s.mem.read (s.pc + 2)).toNat].toNat) % 256)) h
            pc := s.pc + 3 }
        else s.faultedBy .invalidRegister (some (opc.byte .add)) (s.mem.read (s.pc + 2)).toNat
      else s.faultedBy .invalidRegister (some (opc.byte .add)) (s.mem.read (s.pc + 1)).toNat)

/-- R89: one step at a Multiply, with every exception in its order. -/
def Obligations.MultiplyStep : Prop :=
  ∀ (opc : Opc) (s : State), s.status = .running → s.pc ≤ 255 →
    s.mem.read s.pc = opc.byte .multiply →
    stepWith opc s = .next
      (if 254 ≤ s.pc then s.faultedBy .outOfBounds (some (opc.byte .multiply)) 256
      else if h : (s.mem.read (s.pc + 1)).toNat < 8 then
        if _h' : (s.mem.read (s.pc + 2)).toNat < 8 then
          { s with
            x := s.x.set (s.mem.read (s.pc + 1)).toNat (BitVec.ofNat 8
              ((s.x[(s.mem.read (s.pc + 1)).toNat].toNat * s.x[(s.mem.read (s.pc + 2)).toNat].toNat) % 256)) h
            pc := s.pc + 3 }
        else s.faultedBy .invalidRegister (some (opc.byte .multiply)) (s.mem.read (s.pc + 2)).toNat
      else s.faultedBy .invalidRegister (some (opc.byte .multiply)) (s.mem.read (s.pc + 1)).toNat)

/-- R93: one step at a Push, with every exception in its order: StackOverflow before InvalidRegister. -/
def Obligations.PushStep : Prop :=
  ∀ (opc : Opc) (s : State), s.status = .running → s.pc ≤ 255 →
    s.mem.read s.pc = opc.byte .push →
    stepWith opc s = .next
      (if s.pc = 255 then s.faultedBy .outOfBounds (some (opc.byte .push)) 256
      else if s.x[7] = 0 then s.faultedBy .stackOverflow (some (opc.byte .push)) 0
      else if h : (s.mem.read (s.pc + 1)).toNat < 8 then
        { s with
          x := s.x.set 7 (s.x[7] - 1)
          mem := s.mem.write (s.x[7].toNat - 1) (s.x.set 7 (s.x[7] - 1))[(s.mem.read (s.pc + 1)).toNat]
          pc := s.pc + 2 }
      else s.faultedBy .invalidRegister (some (opc.byte .push)) (s.mem.read (s.pc + 1)).toNat)

/-- R94: one step at a Pop, with every exception in its order: InvalidRegister before StackUnderflow, and for Pop R7
the underflow is that of the popped byte, also at SP = 255, as the pseudocode has it (assumption 5). -/
def Obligations.PopStep : Prop :=
  ∀ (opc : Opc) (s : State), s.status = .running → s.pc ≤ 255 →
    s.mem.read s.pc = opc.byte .pop →
    stepWith opc s = .next
      (if s.pc = 255 then s.faultedBy .outOfBounds (some (opc.byte .pop)) 256
      else if h : (s.mem.read (s.pc + 1)).toNat < 8 then
        if (s.x.set (s.mem.read (s.pc + 1)).toNat (s.mem.read s.x[7].toNat) h)[7] = 0xFF#8 then
          s.faultedBy .stackUnderflow (some (opc.byte .pop)) 255
        else
          { s with
            x := (s.x.set (s.mem.read (s.pc + 1)).toNat (s.mem.read s.x[7].toNat) h).set 7
              ((s.x.set (s.mem.read (s.pc + 1)).toNat (s.mem.read s.x[7].toNat) h)[7] + 1)
            pc := s.pc + 2 }
      else s.faultedBy .invalidRegister (some (opc.byte .pop)) (s.mem.read (s.pc + 1)).toNat)

/-- R96: one step at a Call, with every exception in its order: StackOverflow, then the return address 256, then
InvalidRegister. -/
def Obligations.CallStep : Prop :=
  ∀ (opc : Opc) (s : State), s.status = .running → s.pc ≤ 255 →
    s.mem.read s.pc = opc.byte .call →
    stepWith opc s = .next
      (if s.pc = 255 then s.faultedBy .outOfBounds (some (opc.byte .call)) 256
      else if s.x[7] = 0 then s.faultedBy .stackOverflow (some (opc.byte .call)) 0
      else if s.pc = 254 then s.faultedBy .outOfBounds (some (opc.byte .call)) 256
      else if h : (s.mem.read (s.pc + 1)).toNat < 8 then
        { s with
          x := s.x.set 7 (s.x[7] - 1)
          mem := s.mem.write (s.x[7].toNat - 1) (BitVec.ofNat 8 (s.pc + 2))
          pc := ((s.x.set 7 (s.x[7] - 1))[(s.mem.read (s.pc + 1)).toNat]).toNat }
      else s.faultedBy .invalidRegister (some (opc.byte .call)) (s.mem.read (s.pc + 1)).toNat)

/-- R97: one step at a Return, with its one exception; it reads no operand byte, so it runs at address 255. -/
def Obligations.ReturnStep : Prop :=
  ∀ (opc : Opc) (s : State), s.status = .running → s.pc ≤ 255 →
    s.mem.read s.pc = opc.byte .ret →
    stepWith opc s = .next
      (if s.x[7] = 0xFF#8 then s.faultedBy .stackUnderflow (some (opc.byte .ret)) 255
      else { s with x := s.x.set 7 (s.x[7] + 1), pc := (s.mem.read s.x[7].toNat).toNat })

/-! ### Frames -/

/-- R17: every register but the ones R17 lists as written keeps its value, for all nine instructions, whether the
instruction completes or faults. -/
def Obligations.RegisterFrame : Prop :=
  ∀ (i : Instr) (s t : State), exec i s = .next t → ∀ (r : Nat) (_h : r < 8),
    match i with
    | .load a _ | .add a _ | .multiply a _ => r ≠ a.toNat → t.x[r] = s.x[r]
    | .print _ | .halt => t.x[r] = s.x[r]
    | .push _ | .call _ | .ret => r ≠ 7 → t.x[r] = s.x[r]
    | .pop a => r ≠ a.toNat → r ≠ 7 → t.x[r] = s.x[r]

/-- R38, R51: every byte of memory but the one Push or Call stores keeps its value, for all nine instructions;
`pushAddress s` is the address their meanings store to. -/
def Obligations.MemoryFrame : Prop :=
  ∀ (i : Instr) (s t : State), exec i s = .next t → ∀ b : Nat,
    match i with
    | .push _ | .call _ => b ≠ pushAddress s → t.mem.read b = s.mem.read b
    | .load _ _ | .print _ | .halt | .add _ _ | .multiply _ _ | .pop _ | .ret =>
      t.mem.read b = s.mem.read b

/-- R22, R23, R27: no instruction but Print changes the output log, and none changes the status but Halt, to Halted,
or one that faults. -/
def Obligations.OutputAndStatusFrame : Prop :=
  ∀ (i : Instr) (s t : State), exec i s = .next t →
    (t.out = s.out ∨ ∃ a, i = .print a) ∧
    (t.status = s.status ∨ t.status.isFaulted = true ∨ (i = .halt ∧ t.status = .halted))

/-! ### Memory -/

/-- R36, R37: the two memory operations, at every address and in every state. -/
def Obligations.MemoryOperations : Prop :=
  ∀ (a : Nat) (v : Byte) (s : State),
    (255 < a → memRead a s = .error (.outOfBounds a) ∧ memWrite a v s = .error (.outOfBounds a)) ∧
    (a ≤ 255 → ∃ t, memWrite a v s = .ok t ∧ memRead a t = .ok v ∧
      (∀ b, b ≠ a → memRead b t = memRead b s) ∧
      t = { s with mem := t.mem })

/-- R14: the two register operations, at every operand byte and in every state: indices 8..255 raise InvalidRegister;
a register that is set reads as set, every other register and all else stays. -/
def Obligations.RegisterOperations : Prop :=
  ∀ (a v : Byte) (s : State),
    (7 < a.toNat → readReg a s = .error (.invalidRegister a) ∧ writeReg a v s = .error (.invalidRegister a)) ∧
    (∀ h : a.toNat ≤ 7, readReg a s = .ok s.x[a.toNat] ∧
      ∃ t, writeReg a v s = .ok t ∧ readReg a t = .ok v ∧
        (∀ b, b ≠ a → readReg b t = readReg b s) ∧
        t = { s with x := t.x })

/-- Two memories in the canonical form that read alike at every address are the same data (the model's own form). -/
def Obligations.CanonicalMemoryUnique : Prop :=
  ∀ m m' : Memory, m.wf = true → m'.wf = true → (∀ a ≤ 255, m.read a = m'.read a) → m = m'

/-- R46, R123: a byte that a Push stores at the address of the next instruction is the opcode the next step fetches.
Here it is Halt's. -/
def Obligations.PushedByteIsNextOpcode : Prop :=
  ∀ (a : Byte) (s : State) (_h : a.toNat < 7), s.status = .running → s.x[7].toNat = s.pc + 3 →
    s.x[a.toNat] = defaultOpc.byte .halt →
    ∃ t, exec (.push a) s = .next t ∧ t.pc = s.pc + 2 ∧
      step t = .next { t with pc := s.pc + 3, status := .halted }

/-! ### Invariants -/

/-- R19, R26, R102: every step keeps the invariant: canonical memory, pc in 0..256, and a record that says what is in
the machine. -/
def Obligations.StepKeepsInv : Prop :=
  ∀ s t : State, s.Inv → step s = .next t → t.Inv

/-- The invariant holds right after construction, for every accepted table and every choice of the open
parameters. -/
def Obligations.ResetHasInv : Prop :=
  ∀ (opc : Opc) (regInit : Vector Byte 7) (memInit : Memory), memInit.wf = true →
    (State.resetWith regInit memInit).InvWith opc

/-- R31, R7: every event of the interface keeps the invariant, the ones that are refused among them, for the machine
configured with any accepted table. -/
def Obligations.EventsKeepInv : Prop :=
  ∀ (opc : Opc) (s : State) (ev : Event), s.InvWith opc → (s.afterWith opc ev).InvWith opc

/-! ### Whole-machine rules -/

/-- R51: a step after which memory reads otherwise ran a Push or a Call. -/
def Obligations.OnlyPushAndCallWriteMemory : Prop :=
  ∀ (s t : State) (b : Nat), step s = .next t → t.mem.read b ≠ s.mem.read b →
    ∃ a rest, decode defaultOpc (bytesFrom s.mem s.pc) = .ok (.push a, rest) ∨
      decode defaultOpc (bytesFrom s.mem s.pc) = .ok (.call a, rest)

/-- R27: the output log is empty at reset, and a step changes it only by running a Print, which appends one byte,
that of its register. -/
def Obligations.OutputOnlyByPrint : Prop :=
  (∀ (regInit : Vector Byte 7) (memInit : Memory), (State.resetWith regInit memInit).out = []) ∧
  (∀ s t : State, step s = .next t → t.out ≠ s.out →
    ∃ (a : Byte) (rest : List Byte) (_h : a.toNat < 8),
      decode defaultOpc (bytesFrom s.mem s.pc) = .ok (.print a, rest) ∧ t.out = s.out ++ [s.x[a.toNat]])

/-- R25: the status changes by `run()` from Idle, by a Halt and by a fatal error while Running, and in no other way,
whatever the table (R7). -/
def Obligations.StatusTransitions : Prop :=
  ∀ (opc : Opc) (s : State) (ev : Event),
    (s.afterWith opc ev).status = s.status ∨
    (s.status = .idle ∧ ev = .run ∧ (s.afterWith opc ev).status = .running) ∨
    (s.status = .running ∧ ev = .step ∧ (s.afterWith opc ev).status = .halted ∧
      ∃ rest, decode opc (bytesFrom s.mem s.pc) = .ok (.halt, rest)) ∨
    (s.status = .running ∧ ev = .step ∧ (s.afterWith opc ev).status.isFaulted = true)

/-- R81: Halted and Faulted are absorbing: no step, no `run()` and no `load` changes the machine in any way,
whatever the table (R7). -/
def Obligations.TerminalStatusesAbsorb : Prop :=
  ∀ (opc : Opc) (s : State) (ev : Event), s.status.isTerminal → s.afterWith opc ev = s

/-- R81, R82, R33, R7: a run under fuel `n`, for every accepted table and from every state. It has not started
exactly when the status is Idle. It ends in `t` exactly when at most `n` steps lead to `t` and the status of `t` is
Halted or Faulted; its result is then what `t` shows, and more fuel does not change it. It is out of fuel in `t`
exactly when `n` steps lead to `t` and the status of `t` is Running still; then it has no result. -/
def Obligations.RunEndsHaltedOrFaulted : Prop :=
  (∀ (opc : Opc) (n : Nat) (s : State),
    (runForWith opc n s = .notStarted ↔ s.status = .idle) ∧
    (∀ t, runForWith opc n s = .ended t ↔ ∃ k ≤ n, StepsTo opc k s t ∧ t.status.isTerminal) ∧
    (∀ t, runForWith opc n s = .outOfFuel t ↔ StepsTo opc n s t ∧ t.status = .running) ∧
    (∀ t, runForWith opc n s = .ended t →
      (runForWith opc n s).result = some t.observe ∧ ∀ k, runForWith opc (n + k) s = .ended t) ∧
    (∀ t, runForWith opc n s = .outOfFuel t → (runForWith opc n s).result = none)) ∧
  (∀ (n : Nat) (s : State), runFor n s = runForWith defaultOpc n s)

/-! ### The stack -/

/-- R95: Push of one of R0..R6 and then Pop into one of them moves the value and gives SP back; no other register
changes. -/
def Obligations.PushPopRoundTrip : Prop :=
  ∀ (a b : Byte) (s : State) (_ha : a.toNat < 7) (hb : b.toNat < 7), s.x[7] ≠ 0 →
    ∃ t, exec (.push a) s = .next t ∧
      exec (.pop b) t = .next { t with
        x := s.x.set b.toNat s.x[a.toNat] (Nat.lt_succ_of_lt hb), pc := s.pc + 4 }

/-- R98: a Call at h, then any subroutine that leaves SP and the byte at SP as it found them, then a Return: the pc is
h + 2 and SP is what it was before the Call. -/
def Obligations.CallReturnResumes : Prop :=
  ∀ (a : Byte) (s t u : State) (_h : a.toNat < 8), s.x[7] ≠ 0 → s.pc + 2 ≤ 255 →
    exec (.call a) s = .next t → u.x[7] = t.x[7] →
    u.mem.read u.x[7].toNat = t.mem.read t.x[7].toNat →
    exec .ret u = .next { u with x := u.x.set 7 s.x[7], pc := s.pc + 2 }

/-- R97: Push then Return jumps to the pushed register and leaves SP as it was. -/
def Obligations.PushReturnJumps : Prop :=
  ∀ (a : Byte) (s : State) (_h : a.toNat < 7), s.x[7] ≠ 0 →
    ∃ t, exec (.push a) s = .next t ∧
      exec .ret t = .next { t with x := s.x, pc := s.x[a.toNat].toNat }

/-- R92: as many Pushes as SP says complete, one after another, and one more raises StackOverflow. From the reset
value 0xF4 that is 244. -/
def Obligations.StackCapacity : Prop :=
  (∀ (as : List Byte) (s : State), (∀ a ∈ as, a.toNat < 8) → as.length ≤ s.x[7].toNat →
    ∃ t, execSeq exec (as.map .push) s = .next t ∧ t.status = s.status ∧
      t.x[7].toNat = s.x[7].toNat - as.length ∧ t.pc = s.pc + 2 * as.length ∧
      (as.length = s.x[7].toNat → ∀ a, exec (.push a) t =
        .next (t.faultedBy .stackOverflow (some (defaultOpc.byte .push)) 0))) ∧
  (State.reset.x[7]).toNat = 244

/-- R99: as many nested Calls as SP says complete, when each is at an address and through a register (not R7) that a
Call can return past, and one more raises StackOverflow. -/
def Obligations.CallDepth : Prop :=
  ∀ (as : List Byte) (s : State), s.pc ≤ 253 →
    (∀ a ∈ as, ∃ h : a.toNat < 7, s.x[a.toNat].toNat ≤ 253) → as.length ≤ s.x[7].toNat →
    ∃ t, execSeq exec (as.map .call) s = .next t ∧ t.status = s.status ∧ t.pc ≤ 253 ∧
      t.x[7].toNat = s.x[7].toNat - as.length ∧
      (as.length = s.x[7].toNat → ∀ a, exec (.call a) t =
        .next (t.faultedBy .stackOverflow (some (defaultOpc.byte .call)) 0))

/-! ### Reset, the loader boundary and boot -/

/-- R117: the state after reset, for every choice of the open parameters reg_init and mem_init. -/
def Obligations.ResetState : Prop :=
  ∀ (regInit : Vector Byte 7) (memInit : Memory),
    (State.resetWith regInit memInit).pc = 0 ∧
    (State.resetWith regInit memInit).x[7] = 0xF4#8 ∧
    (∀ (r : Nat) (_h : r < 7), (State.resetWith regInit memInit).x[r] = regInit[r]) ∧
    (State.resetWith regInit memInit).mem = memInit ∧
    (State.resetWith regInit memInit).status = .idle ∧
    (State.resetWith regInit memInit).out = []

/-- R33: `run()` moves Idle to Running and does nothing else, and it is not taken from any other status. -/
def Obligations.RunEntry : Prop :=
  ∀ s : State,
    (s.status = .idle → hostRun s = .ok { s with status := .running }) ∧
    (s.status ≠ .idle → hostRun s = .error .refused)

/-- R32: `load` outside Idle is refused and has no effect; in Idle, at an address above 255 it raises OutOfBounds at
the loader boundary and the machine stays Idle; else it is the memory write. -/
def Obligations.LoadOnlyInIdle : Prop :=
  ∀ (a : Nat) (v : Byte) (s : State),
    (s.status ≠ .idle → hostLoad a v s = .error .refused ∧ s.after (.load a v) = s) ∧
    (s.status = .idle → 255 < a →
      hostLoad a v s = .error (.outOfBounds a) ∧ (s.after (.load a v)).status = .idle) ∧
    (s.status = .idle → a ≤ 255 → hostLoad a v s = .ok { s with mem := s.mem.write a v })

/-- R47, R50, R118, R119: booting an image of at most 256 bytes: the image from address 0 up, mem_init above it, the
status Running, and registers and pc as at reset. -/
def Obligations.BootLoadsImage : Prop :=
  ∀ (regInit : Vector Byte 7) (memInit : Memory) (image : List Byte), image.length ≤ 256 →
    ∃ t, boot image (State.resetWith regInit memInit) = (t, none) ∧
      (∀ a, t.mem.read a = (image[a]?).getD (memInit.read a)) ∧
      t = { State.resetWith regInit memInit with mem := t.mem, status := .running }

/-- R48: an image of more than 256 bytes raises OutOfBounds(256); `run()` is not issued, the status stays Idle and no
step exists. -/
def Obligations.LongImageAborts : Prop :=
  ∀ (s : State) (image : List Byte), s.status = .idle → 256 < image.length →
    ∃ t, boot image s = (t, some (.outOfBounds 256)) ∧ t.status = .idle ∧ step t = .fault .idle

/-! ### Texts -/

/-- R49, R69: the image text of any instructions, one line a byte, parses to their bytes in order. -/
def Obligations.ImageTextParses : Prop :=
  ∀ (opc : Opc) (is : List Instr),
    parseImageLines (is.flatMap (imageLines opc)) = .ok (is.flatMap (encode opc))

/-- R66, R67: the text of an instruction whose register operands are R0 to R7 parses to that instruction, for every
immediate. -/
def Obligations.AssemblyTextParses : Prop :=
  ∀ i : Instr, i.wellFormed = true → parseInstr (instrText i) = .ok i
end

