-- ==== Sys2Proof/Laws/Decode.lean ====
section
/-! SUPPORT. What the opcode table's checks give (R58), and what the decoder can answer (R65, R73, R74). -/

namespace Sys2Proof

theorem Role.mem_all (r : Role) : r ∈ Role.all := by cases r <;> decide

/-- R58: a table is valid exactly when it passes the three checks. -/
theorem OpcTable.valid_iff (t : OpcTable) : t.valid = true ↔
    (∀ r r' : Role, t.byte r = t.byte r' → r = r') ∧
    (∀ r : Role, opcodeCount (t.byte r) = r.operandCount) ∧
    (∀ r : Role, opcodeSetsPc (t.byte r) = r.setsPc) := by
  have all (p : Role → Prop) : (∀ r ∈ Role.all, p r) ↔ ∀ r, p r := ⟨fun h r => h r r.mem_all, fun h r _ => h r⟩
  simp only [OpcTable.valid, OpcTable.distinct, OpcTable.countsAgree, OpcTable.flagsAgree, Bool.and_eq_true,
    List.all_eq_true, decide_eq_true_eq, all, and_assoc]

/-- R58: `configure` accepts exactly the valid tables, each as it is. -/
theorem OpcTable.configure_of_valid {t : OpcTable} (h : t.valid = true) : t.configure = .ok ⟨t, h⟩ := by
  simp only [OpcTable.configure, dif_pos h]

theorem OpcTable.configure_of_invalid {t : OpcTable} (h : t.valid = false) : ∃ e, t.configure = .error e := by
  simp only [OpcTable.configure, h, Bool.false_eq_true, dif_neg, not_false_eq_true]
  split
  · exact ⟨_, rfl⟩
  · split <;> exact ⟨_, rfl⟩

theorem Opc.byte_injective (opc : Opc) {r r' : Role} (e : opc.byte r = opc.byte r') : r = r' :=
  ((OpcTable.valid_iff _).1 opc.valid).1 r r' e

/-- R58, check 2: the count in the opcode's bits is the role's. -/
theorem Opc.opcodeCount_byte (opc : Opc) (r : Role) : opcodeCount (opc.byte r) = r.operandCount :=
  ((OpcTable.valid_iff _).1 opc.valid).2.1 r

/-- R58, check 3: the sets-PC flag in the opcode's bits is the role's. -/
theorem Opc.opcodeSetsPc_byte (opc : Opc) (r : Role) : opcodeSetsPc (opc.byte r) = r.setsPc :=
  ((OpcTable.valid_iff _).1 opc.valid).2.2 r

theorem opcodeCount_eq_div (op : Byte) : opcodeCount op = op.toNat / 64 := by
  simp [opcodeCount, Nat.shiftRight_eq_div_pow]

/-- What is found under a byte has that byte. -/
theorem Opc.byte_of_role? {opc : Opc} {op : Byte} {r : Role} (h : opc.role? op = some r) :
    opc.byte r = op := by
  have := List.find?_some h
  simpa using this

/-- R59: direct lookup finds each role under its byte. -/
theorem Opc.role?_byte (opc : Opc) (r : Role) :
    opc.role? (opc.byte r) = some r := by
  cases e : opc.role? (opc.byte r) with
  | none =>
    simp only [Opc.role?, List.find?_eq_none, beq_iff_eq] at e
    exact absurd rfl (e r r.mem_all)
  | some r' => rw [opc.byte_injective (Opc.byte_of_role? e)]

/-- R60: a byte is illegal exactly when no role has it. -/
theorem Opc.role?_eq_none {opc : Opc} {op : Byte} :
    opc.role? op = none ↔ ∀ r, opc.byte r ≠ op := by
  simp only [Opc.role?, List.find?_eq_none, beq_iff_eq]
  exact ⟨fun h r => h r r.mem_all, fun h r _ => h r⟩

theorem Instr.length_operands (i : Instr) : i.operands.length = i.role.operandCount := by
  cases i <;> rfl

theorem Instr.role_ofRole (r : Role) (a b : Byte) : (Instr.ofRole r a b).role = r := by
  cases r <;> rfl

theorem Instr.operands_ofRole (r : Role) (a b : Byte) :
    (Instr.ofRole r a b).operands = [a, b].take r.operandCount := by
  cases r <;> rfl

theorem Instr.ofRole_role (i : Instr) :
    Instr.ofRole i.role (i.operands[0]?.getD 0) (i.operands[1]?.getD 0) = i := by
  cases i <;> rfl

theorem Role.operandCount_le (r : Role) : r.operandCount ≤ 2 := by cases r <;> decide

/-- The length of a decoded instruction is the length of its encoding (R65). -/
theorem Instr.length_eq (opc : Opc) (i : Instr) :
    i.length opc = (encode opc i).length := by
  simp [Instr.length, encode, opc.opcodeCount_byte, i.length_operands, Nat.add_comm]

/-- Everything a decoder that answers an instruction has read: the role's opcode byte, then each operand. -/
theorem decodeFrom_ok {opc : Opc} {read : Nat → Option Byte} {i : Instr}
    (h : decodeFrom opc read = .ok i) :
    read 0 = some (opc.byte i.role) ∧
      ∀ k v, i.operands[k]? = some v → read (k + 1) = some v := by
  unfold decodeFrom at h
  split at h
  · cases h
  rename_i op h0
  split at h
  · cases h
  rename_i r hr
  split at h
  · cases h
  rename_i h1
  split at h
  · cases h
  rename_i h2
  cases h
  obtain rfl := Opc.byte_of_role? hr
  rw [opc.opcodeCount_byte] at h1 h2
  refine ⟨by rw [Instr.role_ofRole]; exact h0, fun k v hk => ?_⟩
  rw [Instr.operands_ofRole] at hk
  have hk' := (List.getElem?_eq_some_iff.1 hk).1
  simp only [List.length_take, List.length_cons, List.length_nil] at hk'
  rw [List.getElem?_take_of_lt (by omega)] at hk
  match k with
  | 0 =>
    cases e : read 1 with
    | none => exact absurd ⟨by omega, e⟩ h1
    | some w => simp_all
  | 1 =>
    cases e : read 2 with
    | none => exact absurd ⟨by omega, e⟩ h2
    | some w => simp_all
  | k + 2 => simp at hk

/-- A decoder that can read an instruction's opcode and operands answers that instruction. -/
theorem decodeFrom_of_read {opc : Opc} {read : Nat → Option Byte} {i : Instr}
    (h0 : read 0 = some (opc.byte i.role))
    (h : ∀ k v, i.operands[k]? = some v → read (k + 1) = some v) :
    decodeFrom opc read = .ok i := by
  unfold decodeFrom
  rw [h0]
  simp only [opc.role?_byte, opc.opcodeCount_byte]
  have h1 := h 0
  have h2 := h 1
  cases i <;> simp_all [Instr.role, Role.operandCount, Instr.operands, Instr.ofRole]

/-- The decoder on a list of bytes, through the list's reads. -/
theorem decode_ok {opc : Opc} {bytes rest : List Byte} {i : Instr} :
    decode opc bytes = .ok (i, rest) ↔
      decodeFrom opc (fun k => bytes[k]?) = .ok i ∧ rest = bytes.drop (i.length opc) := by
  unfold decode
  split <;> simp_all
  exact fun h => ⟨fun e => h ▸ e.symm, fun e => h ▸ e.symm⟩

end Sys2Proof
end

