-- ==== Sys2Proof/Laws/Memory.lean ====
section
/-! SUPPORT. The laws of memory: read after write, the canonical form kept by every operation, and equal reads make
equal canonical memories. -/

namespace Sys2Proof.Machine

theorem Memory.read_put (m : Memory) (a b : Nat) (v : Byte) :
    (m.put a v).read b = if b = a then v else m.read b := by
  induction m with
  | nil => simp only [Memory.put, Memory.read, eq_comm]
  | cons c m ih =>
    obtain ⟨k, w⟩ := c
    simp only [Memory.put]
    split_ifs <;> simp only [Memory.read, ih] <;> split_ifs <;> first | rfl | omega

theorem Memory.read_erase (m : Memory) (a b : Nat) :
    (m.erase a).read b = if b = a then unlistedByte else m.read b := by
  induction m with
  | nil => simp [Memory.erase, Memory.read]
  | cons c m ih =>
    obtain ⟨k, w⟩ := c
    simp only [Memory.erase]
    split_ifs <;> simp only [Memory.read, ih] <;> split_ifs <;> first | rfl | omega

/-- Read after write: the byte written at its address, and every other byte as it was (R37, R44). -/
theorem Memory.read_write (m : Memory) (a b : Nat) (v : Byte) :
    (m.write a v).read b = if b = a then v else m.read b := by
  simp only [Memory.write]
  split
  · rw [Memory.read_erase, ‹v = _›]
  · exact Memory.read_put m a b v

theorem Memory.wfFrom_mono {m : Memory} {lo lo' : Nat} (h : m.wfFrom lo = true) (hl : lo' ≤ lo) :
    m.wfFrom lo' = true := by
  cases m with
  | nil => rfl
  | cons c m =>
    simp only [Memory.wfFrom, Bool.and_eq_true, decide_eq_true_eq] at h ⊢
    exact ⟨⟨⟨by omega, h.1.1.2⟩, h.1.2⟩, h.2⟩

theorem Memory.wfFrom_put {m : Memory} {lo a : Nat} {v : Byte} (h : m.wfFrom lo = true) (hlo : lo ≤ a)
    (ha : a < memSize) (hv : v ≠ unlistedByte) : (m.put a v).wfFrom lo = true := by
  induction m generalizing lo with
  | nil => simp [Memory.put, Memory.wfFrom, hlo, ha, hv]
  | cons c m ih =>
    obtain ⟨k, w⟩ := c
    simp only [Memory.wfFrom, Bool.and_eq_true, decide_eq_true_eq] at h
    obtain ⟨⟨⟨h1, h2⟩, h3⟩, h4⟩ := h
    simp only [Memory.put]
    split
    · simp [Memory.wfFrom, h1, h2, h3, ih h4 (by omega)]
    · split
      · subst k
        simp [Memory.wfFrom, hlo, ha, hv, h4]
      · simp [Memory.wfFrom, hlo, ha, hv, h2, h3, h4]
        omega

theorem Memory.wfFrom_erase {m : Memory} {lo : Nat} (a : Nat) (h : m.wfFrom lo = true) :
    (m.erase a).wfFrom lo = true := by
  induction m generalizing lo with
  | nil => rfl
  | cons c m ih =>
    obtain ⟨k, w⟩ := c
    simp only [Memory.wfFrom, Bool.and_eq_true, decide_eq_true_eq] at h
    obtain ⟨⟨⟨h1, h2⟩, h3⟩, h4⟩ := h
    simp only [Memory.erase]
    split
    · exact Memory.wfFrom_mono (ih h4) (by omega)
    · simp [Memory.wfFrom, h1, h2, h3, ih h4]

/-- A store inside [0,255] keeps the canonical form. -/
theorem Memory.wf_write {m : Memory} {a : Nat} (v : Byte) (h : m.wf = true) (ha : a < memSize) :
    (m.write a v).wf = true := by
  simp only [Memory.write]
  split
  · exact Memory.wfFrom_erase a h
  · exact Memory.wfFrom_put h (Nat.zero_le a) ha ‹_›

/-- Placing bytes keeps the canonical form, as nothing past the end is stored. -/
theorem Memory.wf_placeBytes {m : Memory} (a : Nat) (vs : List Byte) (h : m.wf = true) :
    (placeBytes m a vs).wf = true := by
  induction vs generalizing m a with
  | nil => exact h
  | cons v vs ih =>
    refine ih (a + 1) ?_
    split
    · exact Memory.wf_write v h ‹_›
    · exact h

theorem Memory.read_of_wfFrom {m : Memory} {lo a : Nat} (h : m.wfFrom lo = true) (ha : a < lo) :
    m.read a = unlistedByte := by
  induction m generalizing lo with
  | nil => rfl
  | cons c m ih =>
    obtain ⟨k, w⟩ := c
    simp only [Memory.wfFrom, Bool.and_eq_true, decide_eq_true_eq] at h
    obtain ⟨⟨⟨h1, _⟩, _⟩, h4⟩ := h
    simp only [Memory.read, if_neg (by omega : ¬ k = a)]
    exact ih h4 (by omega)

end Sys2Proof.Machine
end

