-- ==== Sys2Proof/Laws/Ops.lean ====
section
/-! SUPPORT. For each shared operation one lemma that says everything it can answer; proofs cite these and do not
unfold the operation. -/

namespace Sys2Proof.Machine

theorem regIndex_of_lt {a : Byte} (h : a.toNat < 8) : regIndex a = .ok ⟨a.toNat, h⟩ := by
  simp [regIndex, h]

theorem regIndex_of_ge {a : Byte} (h : ¬ a.toNat < 8) : regIndex a = .error (.invalidRegister a) := by
  simp [regIndex, h]

/-- R14: a register read. -/
theorem readReg_eq (a : Byte) (s : State) :
    readReg a s = if h : a.toNat < 8 then .ok s.x[a.toNat] else .error (.invalidRegister a) := by
  by_cases h : a.toNat < 8
  · simp only [readReg, regIndex_of_lt h, dif_pos h]; rfl
  · simp only [readReg, regIndex_of_ge h, dif_neg h]; rfl

/-- R14: a register write. -/
theorem writeReg_eq (a v : Byte) (s : State) :
    writeReg a v s =
      if h : a.toNat < 8 then .ok { s with x := s.x.set a.toNat v h } else .error (.invalidRegister a) := by
  by_cases h : a.toNat < 8
  · simp only [writeReg, regIndex_of_lt h, dif_pos h]; rfl
  · simp only [writeReg, regIndex_of_ge h, dif_neg h]; rfl

/-- R36: a read at an address an SP can hold never raises. -/
theorem memRead_byte (a : Byte) (s : State) : memRead a.toNat s = .ok (s.mem.read a.toNat) := by
  have := a.isLt
  simp [memRead, memSize, this]

/-- R93: the address of a push never raises. -/
theorem memWrite_pushAddress (v : Byte) (s t : State) :
    memWrite (pushAddress s) v t = .ok { t with mem := t.mem.write (pushAddress s) v } := by
  have := s.sp.isLt
  have h : pushAddress s < memSize := by simp only [pushAddress, memSize]; omega
  rw [memWrite, if_pos h]

/-- R93, R96: the decrement of SP. -/
theorem decrementSp_eq (s : State) :
    decrementSp s = if s.x[7] = 0 then .error (.stackOverflow 0) else .ok (s.setSp (s.x[7] - 1)) := by
  by_cases h : s.sp = 0
  · simp only [decrementSp, h, if_true]
  · simp only [decrementSp, if_neg h]

/-- R94, R97: the increment of SP. -/
theorem incrementSp_eq (s : State) :
    incrementSp s =
      if s.x[7] = 0xFF#8 then .error (.stackUnderflow 0xFF#8) else .ok (s.setSp (s.x[7] + 1)) := by
  by_cases h : s.sp = 0xFF#8
  · simp only [incrementSp, h, if_true]
  · simp only [incrementSp, if_neg h]

@[simp] theorem takeFault_mem (e : Raise) (op : Option Byte) (s : State) : (takeFault e op s).mem = s.mem := rfl
@[simp] theorem takeFault_x (e : Raise) (op : Option Byte) (s : State) : (takeFault e op s).x = s.x := rfl
@[simp] theorem takeFault_pc (e : Raise) (op : Option Byte) (s : State) : (takeFault e op s).pc = s.pc := rfl
@[simp] theorem takeFault_out (e : Raise) (op : Option Byte) (s : State) : (takeFault e op s).out = s.out := rfl
@[simp] theorem takeFault_status (e : Raise) (op : Option Byte) (s : State) :
    (takeFault e op s).status = .faulted ⟨e.kind, s.pc, op, e.detail⟩ := rfl

@[simp] theorem advancePc_mem (r : Role) (s : State) : (advancePc r s).mem = s.mem := by
  simp only [advancePc]; split <;> rfl
@[simp] theorem advancePc_x (r : Role) (s : State) : (advancePc r s).x = s.x := by
  simp only [advancePc]; split <;> rfl
@[simp] theorem advancePc_out (r : Role) (s : State) : (advancePc r s).out = s.out := by
  simp only [advancePc]; split <;> rfl
@[simp] theorem advancePc_status (r : Role) (s : State) : (advancePc r s).status = s.status := by
  simp only [advancePc]; split <;> rfl

@[simp] theorem haltIf_mem (r : Role) (s : State) : (haltIf r s).mem = s.mem := by
  simp only [haltIf]; split <;> rfl
@[simp] theorem haltIf_x (r : Role) (s : State) : (haltIf r s).x = s.x := by
  simp only [haltIf]; split <;> rfl
@[simp] theorem haltIf_pc (r : Role) (s : State) : (haltIf r s).pc = s.pc := by
  simp only [haltIf]; split <;> rfl
@[simp] theorem haltIf_out (r : Role) (s : State) : (haltIf r s).out = s.out := by
  simp only [haltIf]; split <;> rfl

/-- R77 to R80: everything that can follow a handler. -/
theorem conclude_next {opc : Opc} {r : Role} {s t : State} {h : Except Raise State}
    (e : conclude opc r s h = .next t) :
    (∃ u, h = .ok u ∧ t = haltIf r (advancePc r u)) ∨
    (∃ ra, h = .error ra ∧ t = takeFault ra (some (opc.byte r)) s) := by
  cases h with
  | ok u => exact .inl ⟨u, rfl, by simpa [conclude] using e.symm⟩
  | error ra => exact .inr ⟨ra, rfl, by simpa [conclude] using e.symm⟩

/-- What follows a handler is always a next state: an instruction never stops the model. -/
theorem conclude_total (opc : Opc) (r : Role) (s : State) (h : Except Raise State) :
    ∃ t, conclude opc r s h = .next t := by
  cases h <;> exact ⟨_, rfl⟩

end Sys2Proof.Machine
end

