-- ==== Sys2Proof/Laws/Handlers.lean ====
section
/-! SUPPORT. What each handler answers, in closed form and in the order of its checks (R105), and what follows from
that for all nine at once. -/

namespace Sys2Proof.Machine

theorem exec_eq_execWith (i : Instr) (s : State) : exec i s = execWith defaultOpc i s := by
  cases i <;> rfl

theorem execWith_total (opc : Opc) (i : Instr) (s : State) : ∃ t, execWith opc i s = .next t :=
  conclude_total ..

theorem handleLoad_eq (a imm : Byte) (s : State) :
    handleLoad a imm s =
      if h : a.toNat < 8 then .ok { s with x := s.x.set a.toNat imm h } else .error (.invalidRegister a) :=
  writeReg_eq a imm s

theorem handlePrint_eq (a : Byte) (s : State) :
    handlePrint a s =
      if h : a.toNat < 8 then .ok (s.emit s.x[a.toNat]) else .error (.invalidRegister a) := by
  simp only [handlePrint, readReg_eq]
  split <;> rfl

theorem handleAlu_eq (f : Byte → Byte → Byte) (a b : Byte) (s : State) :
    handleAlu f a b s =
      if h : a.toNat < 8 then
        if _h' : b.toNat < 8 then .ok { s with x := s.x.set a.toNat (f s.x[a.toNat] s.x[b.toNat]) h }
        else .error (.invalidRegister b)
      else .error (.invalidRegister a) := by
  simp only [handleAlu, readReg_eq, writeReg_eq]
  by_cases h : a.toNat < 8
  · by_cases h' : b.toNat < 8 <;> simp only [dif_pos h, h', dite_true, dite_false] <;> rfl
  · simp only [dif_neg h]; rfl

theorem handlePush_eq (a : Byte) (s : State) :
    handlePush a s =
      if s.x[7] = 0 then .error (.stackOverflow 0)
      else if h : a.toNat < 8 then
        .ok { s with
          x := s.x.set 7 (s.x[7] - 1)
          mem := s.mem.write (s.x[7].toNat - 1) (s.x.set 7 (s.x[7] - 1))[a.toNat] }
      else .error (.invalidRegister a) := by
  simp only [handlePush, decrementSp_eq, readReg_eq]
  by_cases h0 : s.x[7] = 0
  · simp only [h0, if_true]; rfl
  · by_cases h : a.toNat < 8
    · simp only [if_neg h0, dif_pos h]
      exact memWrite_pushAddress ..
    · simp only [if_neg h0, dif_neg h]; rfl

theorem handlePop_eq (a : Byte) (s : State) :
    handlePop a s =
      if h : a.toNat < 8 then
        if (s.x.set a.toNat (s.mem.read s.x[7].toNat) h)[7] = 0xFF#8 then .error (.stackUnderflow 0xFF#8)
        else .ok { s with
          x := (s.x.set a.toNat (s.mem.read s.x[7].toNat) h).set 7
            ((s.x.set a.toNat (s.mem.read s.x[7].toNat) h)[7] + 1) }
      else .error (.invalidRegister a) := by
  have hs : ¬ 255 < s.sp.toNat := by have := s.sp.isLt; omega
  simp only [handlePop, if_neg hs, memRead_byte, writeReg_eq]
  by_cases h : a.toNat < 8
  · simp only [dif_pos h]
    exact incrementSp_eq _
  · simp only [dif_neg h]; rfl

theorem handleCall_eq (a : Byte) (s : State) :
    handleCall a s =
      if s.x[7] = 0 then .error (.stackOverflow 0)
      else if 255 < s.pc + 2 then .error (.outOfBounds (s.pc + 2))
      else if h : a.toNat < 8 then
        .ok { s with
          x := s.x.set 7 (s.x[7] - 1)
          mem := s.mem.write (s.x[7].toNat - 1) (BitVec.ofNat 8 (s.pc + 2))
          pc := ((s.x.set 7 (s.x[7] - 1))[a.toNat]).toNat }
      else .error (.invalidRegister a) := by
  simp only [handleCall, decrementSp_eq, readReg_eq, returnAddress, memWrite_pushAddress]
  by_cases h0 : s.x[7] = 0
  · simp only [h0, if_true]; rfl
  · by_cases h1 : 255 < s.pc + 2
    · simp only [if_neg h0, if_pos h1]; rfl
    · by_cases h : a.toNat < 8
      · simp only [if_neg h0, if_neg h1, dif_pos h]; rfl
      · simp only [if_neg h0, if_neg h1, dif_neg h]; rfl

theorem handleReturn_eq (s : State) :
    handleReturn s =
      if s.x[7] = 0xFF#8 then .error (.stackUnderflow 0xFF#8)
      else .ok { s with x := s.x.set 7 (s.x[7] + 1), pc := (s.mem.read s.x[7].toNat).toNat } := by
  simp only [handleReturn, memRead_byte, incrementSp_eq]
  by_cases h : s.x[7] = 0xFF#8
  · simp only [if_pos h]; rfl
  · simp only [if_neg h]; rfl

/-- No handler writes the status: only Halt's own step and fault entry do (R78, R80). -/
theorem handle_status {i : Instr} {s t : State} (h : handle i s = .ok t) : t.status = s.status := by
  cases i <;> simp only [handle, handleHalt, handleAdd, handleMultiply, handleLoad_eq, handlePrint_eq, handleAlu_eq,
    handlePush_eq, handlePop_eq, handleCall_eq, handleReturn_eq] at h <;> (repeat' split at h) <;> cases h <;> rfl

/-- Only a handler whose role sets the pc writes it (R20). -/
theorem handle_pc {i : Instr} {s t : State} (h : handle i s = .ok t) (hp : i.role.setsPc = false) :
    t.pc = s.pc := by
  cases i <;> simp only [Instr.role, Role.setsPc, reduceCtorEq] at hp <;>
    simp only [handle, handleHalt, handleAdd, handleMultiply, handleLoad_eq, handlePrint_eq, handleAlu_eq,
    handlePush_eq, handlePop_eq] at h <;> (repeat' split at h) <;> cases h <;> rfl

/-- Every handler keeps memory canonical (R51: only Push and Call store, at an address below 255). -/
theorem handle_mem_wf {i : Instr} {s t : State} (h : handle i s = .ok t) (hm : s.mem.wf = true) :
    t.mem.wf = true := by
  have hw : ∀ v, (s.mem.write (s.x[7].toNat - 1) v).wf = true := fun v =>
    Memory.wf_write v hm (by have := s.x[7].isLt; simp only [memSize]; omega)
  cases i <;> simp only [handle, handleHalt, handleAdd, handleMultiply, handleLoad_eq, handlePrint_eq, handleAlu_eq,
    handlePush_eq, handlePop_eq, handleCall_eq, handleReturn_eq] at h <;> (repeat' split at h) <;> cases h <;>
    first | exact hm | exact hw _

end Sys2Proof.Machine
end

