-- ==== Sys2Proof/Laws/Engine.lean ====
section
/-! SUPPORT. What a step can do (R71 to R80), said once: its fetch in terms of the decoder, and the four ways it ends. -/

namespace Sys2Proof.Machine

theorem bytesFrom_getElem? (m : Memory) (a k : Nat) : (bytesFrom m a)[k]? = m.byteAt? (a + k) := by
  simp only [bytesFrom, Memory.byteAt?, List.getElem?_map, memSize]
  by_cases h : a + k < 256
  · rw [if_pos h, List.getElem?_range (by omega)]; rfl
  · rw [if_neg h, List.getElem?_eq_none (by simp only [List.length_range]; omega)]; rfl

/-- R46: the engine's fetch is the decoder on the bytes of memory from the pc up. -/
theorem fetch_eq_decodeFrom (opc : Opc) (s : State) :
    fetch opc s = decodeFrom opc fun k => (bytesFrom s.mem s.pc)[k]? := by
  simp only [fetch, bytesFrom_getElem?]

theorem fetch_of_decode {opc : Opc} {s : State} {i : Instr} {rest : List Byte}
    (h : decode opc (bytesFrom s.mem s.pc) = .ok (i, rest)) : fetch opc s = .ok i := by
  rw [fetch_eq_decodeFrom]
  exact (decode_ok.1 h).1

theorem decode_of_fetch {opc : Opc} {s : State} {i : Instr} (h : fetch opc s = .ok i) :
    ∃ rest, decode opc (bytesFrom s.mem s.pc) = .ok (i, rest) := by
  rw [fetch_eq_decodeFrom] at h
  exact ⟨_, decode_ok.2 ⟨h, rfl⟩⟩

theorem Memory.byteAt?_of_le {m : Memory} {a : Nat} (h : a ≤ 255) : m.byteAt? a = some (m.read a) := by
  simp [Memory.byteAt?, memSize, Nat.lt_succ_of_le h]

theorem Memory.byteAt?_of_gt {m : Memory} {a : Nat} (h : 255 < a) : m.byteAt? a = none := by
  simp [Memory.byteAt?, memSize, Nat.not_lt.2 h]

theorem Memory.byteAt?_some {m : Memory} {a : Nat} {v : Byte} (h : m.byteAt? a = some v) :
    a ≤ 255 ∧ m.read a = v := by
  simp only [Memory.byteAt?, memSize] at h
  split at h
  · exact ⟨by omega, by simpa using h⟩
  · cases h

/-- What a successful fetch has read: the opcode at the pc and operand k at pc + 1 + k, all inside memory. -/
theorem fetch_ok {opc : Opc} {s : State} {i : Instr} (h : fetch opc s = .ok i) :
    s.pc + i.role.operandCount ≤ 255 ∧ s.mem.read s.pc = opc.byte i.role ∧
      ∀ k v, i.operands[k]? = some v → s.mem.read (s.pc + 1 + k) = v := by
  obtain ⟨h0, hk⟩ := decodeFrom_ok h
  have h0' := Memory.byteAt?_some h0
  refine ⟨?_, h0'.2, fun k v e => ?_⟩
  · cases hn : i.role.operandCount with
    | zero => exact h0'.1
    | succ n =>
      have hl : n < i.operands.length := by rw [i.length_operands, hn]; omega
      exact (Memory.byteAt?_some (hk n _ (List.getElem?_eq_getElem hl))).1
  · have := (Memory.byteAt?_some (hk k v e)).2
    rwa [Nat.add_comm k 1, ← Nat.add_assoc] at this

/-- R72 to R74: the checks of a fetch in their order. -/
theorem fetch_eq (opc : Opc) (s : State) :
    fetch opc s =
      if 255 < s.pc then .error .noOpcode
      else match opc.role? (s.mem.read s.pc) with
        | none => .error (.unknownOpcode (s.mem.read s.pc))
        | some r =>
          if 1 ≤ r.operandCount ∧ 255 < s.pc + 1 then .error (.noOperand (s.mem.read s.pc) 1)
          else if 2 ≤ r.operandCount ∧ 255 < s.pc + 2 then .error (.noOperand (s.mem.read s.pc) 2)
          else .ok (Instr.ofRole r (s.mem.read (s.pc + 1)) (s.mem.read (s.pc + 2))) := by
  unfold fetch decodeFrom
  by_cases h0 : 255 < s.pc
  · simp only [Nat.add_zero, Memory.byteAt?_of_gt h0, if_pos h0]
  simp only [Nat.add_zero, Memory.byteAt?_of_le (Nat.le_of_not_lt h0), if_neg h0]
  cases hr : opc.role? (s.mem.read s.pc) with
  | none => rfl
  | some r =>
    have hc : opcodeCount (s.mem.read s.pc) = r.operandCount := by
      rw [← Opc.byte_of_role? hr, opc.opcodeCount_byte]
    have hn : ∀ k, s.mem.byteAt? (s.pc + k) = none ↔ 255 < s.pc + k := fun k => by
      by_cases hk : 255 < s.pc + k
      · simp [Memory.byteAt?_of_gt hk, hk]
      · simp [Memory.byteAt?_of_le (Nat.le_of_not_lt hk), Nat.le_of_not_lt hk]
    have hg : ∀ k, s.pc + k ≤ 255 → s.mem.byteAt? (s.pc + k) = some (s.mem.read (s.pc + k)) :=
      fun k hk => Memory.byteAt?_of_le hk
    simp only [hc, hn]
    split
    · rfl
    split
    · rfl
    cases r <;> simp_all [Role.operandCount, Instr.ofRole]

theorem stepBy_running {s : State} (h : s.status = .running) (opc : Opc)
    (run : Instr → State → Host.Outcome State Fault Refusal) :
    stepBy opc run s = match fetch opc s with
      | .ok i => run i s
      | .error .noOpcode => .next (takeFault (.outOfBounds s.pc) none s)
      | .error (.unknownOpcode op) => .next (takeFault (.unknownInstruction op) (some op) s)
      | .error (.noOperand op k) => .next (takeFault (.outOfBounds (s.pc + k)) (some op) s) := by
  obtain ⟨_, _, _, st, _⟩ := s
  cases h
  rfl

theorem step_eq_stepWith (s : State) : step s = stepWith defaultOpc s := by
  have : exec = execWith defaultOpc := funext fun i => funext fun s => exec_eq_execWith i s
  simp only [step, stepWith, this]

/-- A step with a next state began in Running (R71). -/
theorem running_of_stepWith {opc : Opc} {s t : State} (h : stepWith opc s = .next t) : s.status = .running := by
  simp only [stepWith, stepBy] at h
  split at h <;> first | assumption | cases h

/-- Everything a step with a next state can have done (R79): run the fetched instruction, or fault in the fetch. -/
theorem stepWith_next {opc : Opc} {s t : State} (h : stepWith opc s = .next t) :
    (∃ i, fetch opc s = .ok i ∧ execWith opc i s = .next t) ∨
    (255 < s.pc ∧ t = takeFault (.outOfBounds s.pc) none s) ∨
    (s.pc ≤ 255 ∧ opc.role? (s.mem.read s.pc) = none ∧
      t = takeFault (.unknownInstruction (s.mem.read s.pc)) (some (s.mem.read s.pc)) s) ∨
    (∃ k, s.pc ≤ 255 ∧ 253 < s.pc ∧ s.pc + k = 256 ∧
      t = takeFault (.outOfBounds 256) (some (s.mem.read s.pc)) s) := by
  have hr := running_of_stepWith h
  rw [stepWith, stepBy_running hr] at h
  have hf := fetch_eq opc s
  cases e : fetch opc s with
  | ok i => rw [e] at h; exact .inl ⟨i, rfl, h⟩
  | error er =>
    rw [e] at h hf
    split at hf
    · cases hf
      exact .inr (.inl ⟨‹_›, by simpa using h.symm⟩)
    rename_i h0
    split at hf
    · cases hf
      exact .inr (.inr (.inl ⟨Nat.le_of_not_lt h0, ‹_›, by simpa using h.symm⟩))
    split at hf
    · cases hf
      rename_i h1
      have h2 : s.pc + 1 = 256 := by omega
      exact .inr (.inr (.inr ⟨1, Nat.le_of_not_lt h0, by omega, h2, by simpa [h2] using h.symm⟩))
    split at hf
    · cases hf
      rename_i r hr h1 h2
      have h3 : s.pc + 2 = 256 := by omega
      exact .inr (.inr (.inr ⟨2, Nat.le_of_not_lt h0, by omega, h3, by simpa [h3] using h.symm⟩))
    · cases hf

/-- `stepWith_next` for the default table, in terms of exec. -/
theorem step_next {s t : State} (h : step s = .next t) :
    (∃ i, fetch defaultOpc s = .ok i ∧ exec i s = .next t) ∨
    (255 < s.pc ∧ t = takeFault (.outOfBounds s.pc) none s) ∨
    (s.pc ≤ 255 ∧ defaultOpc.role? (s.mem.read s.pc) = none ∧
      t = takeFault (.unknownInstruction (s.mem.read s.pc)) (some (s.mem.read s.pc)) s) ∨
    (∃ k, s.pc ≤ 255 ∧ 253 < s.pc ∧ s.pc + k = 256 ∧
      t = takeFault (.outOfBounds 256) (some (s.mem.read s.pc)) s) := by
  simp only [exec_eq_execWith]
  exact stepWith_next (step_eq_stepWith s ▸ h)

theorem running_of_step {s t : State} (h : step s = .next t) : s.status = .running :=
  running_of_stepWith (step_eq_stepWith s ▸ h)

/-- Every Running state has a step with a next state (R71). -/
theorem stepWith_total (opc : Opc) {s : State} (h : s.status = .running) : ∃ t, stepWith opc s = .next t := by
  rw [stepWith, stepBy_running h]
  cases fetch opc s with
  | ok i => exact execWith_total opc i s
  | error e => cases e <;> exact ⟨_, rfl⟩

end Sys2Proof.Machine
end

