-- ==== Sys2Proof/Laws/Interface.lean ====
section
/-! SUPPORT. The interface operations that happen (R31 to R33), and the small lemmas of a run under fuel (R81, R82). -/

namespace Sys2Proof.Machine

theorem hostLoad_ok {a : Nat} {v : Byte} {s t : State} (h : hostLoad a v s = .ok t) :
    s.status = .idle ∧ a ≤ 255 ∧ t = { s with mem := s.mem.write a v } := by
  unfold hostLoad at h
  split at h
  · rename_i hs
    by_cases ha : a < memSize
    · simp only [memWrite, if_pos ha] at h
      cases h
      exact ⟨hs, by simp only [memSize] at ha; omega, rfl⟩
    · simp only [memWrite, if_neg ha] at h
      cases h
  all_goals cases h

theorem hostRun_ok {s t : State} (h : hostRun s = .ok t) :
    s.status = .idle ∧ t = { s with status := .running } := by
  unfold hostRun at h
  split at h
  · cases h; exact ⟨‹_›, rfl⟩
  all_goals cases h

@[simp] theorem Status.isTerminal_idle : ¬ Status.idle.isTerminal := by simp [Status.isTerminal, Status.isFaulted]
@[simp] theorem Status.isTerminal_running : ¬ Status.running.isTerminal := by
  simp [Status.isTerminal, Status.isFaulted]
@[simp] theorem Status.isTerminal_halted : Status.halted.isTerminal := .inl rfl
@[simp] theorem Status.isTerminal_faulted (e : ErrorRecord) : (Status.faulted e).isTerminal := .inr rfl

theorem State.verdict_eq_notStarted {s : State} : s.verdict = .notStarted ↔ s.status = .idle := by
  unfold State.verdict
  split <;> simp_all

theorem State.verdict_eq_ended {s t : State} : s.verdict = .ended t ↔ s = t ∧ t.status.isTerminal := by
  unfold State.verdict
  split <;> rename_i h <;> simp only [reduceCtorEq, RunResult.ended.injEq, false_iff] <;>
    first
    | (rintro ⟨rfl, h'⟩; simp [h] at h')
    | exact ⟨fun e => ⟨e, e ▸ h ▸ by simp⟩, And.left⟩

theorem State.verdict_eq_outOfFuel {s t : State} : s.verdict = .outOfFuel t ↔ s = t ∧ t.status = .running := by
  unfold State.verdict
  split <;> rename_i h <;> simp only [reduceCtorEq, RunResult.outOfFuel.injEq, false_iff] <;>
    first
    | (rintro ⟨rfl, h'⟩; simp [h] at h')
    | exact ⟨fun e => ⟨e, e ▸ h⟩, And.left⟩

/-- A run takes the step there is. -/
theorem runForWith_next {opc : Opc} {s t : State} (h : stepWith opc s = .next t) (n : Nat) :
    runForWith opc (n + 1) s = runForWith opc n t := by
  simp only [runForWith, h]

/-- A run outside Running takes no step, whatever its fuel (R71). -/
theorem runForWith_of_not_running {s : State} (h : s.status ≠ .running) (opc : Opc) (n : Nat) :
    runForWith opc n s = s.verdict := by
  cases n with
  | zero => rfl
  | succ n =>
    unfold runForWith
    split
    · exact absurd (running_of_stepWith ‹_›) h
    · rfl
    · rfl

/-- The first of n + 1 steps is the step there is. -/
theorem stepsTo_succ {opc : Opc} {n : Nat} {s t u : State} (h : stepWith opc s = .next t) :
    StepsTo opc (n + 1) s u ↔ StepsTo opc n t u := by
  refine ⟨fun hs => ?_, .next h⟩
  cases hs with
  | next hx hr => rw [h] at hx; cases hx; exact hr

/-- No step begins outside Running (R71). -/
theorem stepsTo_of_not_running {opc : Opc} {n : Nat} {s t : State} (h : s.status ≠ .running) :
    StepsTo opc n s t ↔ n = 0 ∧ t = s := by
  refine ⟨fun hs => ?_, fun ⟨h1, h2⟩ => h1 ▸ h2 ▸ .refl _⟩
  cases hs with
  | refl => exact ⟨rfl, rfl⟩
  | next hx _ => exact absurd (running_of_stepWith hx) h

end Sys2Proof.Machine
end

