-- ==== Sys2Proof/Laws/PerInstr.lean ====
section
/-! SUPPORT. A statement about every instruction as syntax, one lemma per constructor. -/

namespace Sys2Proof.Laws.EncodeLength

/-- R53, R65: under every accepted table the encoding is the role's opcode byte and then as many bytes as that byte's
bits 7:6 say, so its length never depends on the operands. -/
def Statement (i : Instr) : Prop :=
  ∀ opc : Opc,
    (encode opc i).head? = some (opc.byte i.role) ∧ (encode opc i).length = 1 + opcodeCount (opc.byte i.role)

theorem of_operandCount {i : Instr} (h : i.operands.length = i.role.operandCount) : Statement i := by
  intro opc
  refine ⟨rfl, ?_⟩
  rw [opc.opcodeCount_byte, ← h, Nat.add_comm]
  rfl

theorem load (a imm : Byte) : Statement (.load a imm) := of_operandCount rfl
theorem print (a : Byte) : Statement (.print a) := of_operandCount rfl
theorem halt : Statement .halt := of_operandCount rfl
theorem add (a b : Byte) : Statement (.add a b) := of_operandCount rfl
theorem multiply (a b : Byte) : Statement (.multiply a b) := of_operandCount rfl
theorem push (a : Byte) : Statement (.push a) := of_operandCount rfl
theorem pop (a : Byte) : Statement (.pop a) := of_operandCount rfl
theorem call (a : Byte) : Statement (.call a) := of_operandCount rfl
theorem ret : Statement .ret := of_operandCount rfl

end Sys2Proof.Laws.EncodeLength
end

