-- ==== Sys2Proof/Tests/Slice0.lean ====
section
/-! SUPPORT. Small tests, their expected results taken from spec/30_encoding.md R57 and the vectors of
spec/95_test_vectors.md (named in each comment), and one witness for each statement that has hypotheses. -/

namespace Sys2Proof.Tests

open Sys2Proof Sys2Proof.Machine

/-- A Running machine, else as at reset, with bytes at the pc and given registers. -/
def start (pc : Nat) (bytes : List Byte) (x : Vector Byte 8 := State.reset.x) : State :=
  { State.reset with mem := placeBytes [] pc bytes, x := x, pc := pc, status := .running }

/-- The next state, if there is one. -/
def nextOf (o : Host.Outcome State Fault Refusal) : Option State :=
  match o with
  | .next t => some t
  | .fault _ | .refused _ => none

/-- The status a step from a state leaves. -/
def statusAfter (s : State) : Option Status := (nextOf (step s)).map State.status

/-- SP and the pc a step from a state leaves. -/
def spPcAfter (s : State) : Option (Byte × Nat) := (nextOf (step s)).map fun t => (t.x[7], t.pc)

/-! ### Well-formedness (R67) and the checks of the opcode table (R58): an ill-formed term for each -/

theorem test_wellFormed_refuses_load : Instr.wellFormed (.load 8 0) = false := by decide
theorem test_wellFormed_refuses_add_a : Instr.wellFormed (.add 8 0) = false := by decide
theorem test_wellFormed_refuses_multiply_b : Instr.wellFormed (.multiply 0 255) = false := by decide
theorem test_wellFormed_refuses_print : Instr.wellFormed (.print 9) = false := by decide
theorem test_wellFormed_refuses_push : Instr.wellFormed (.push 8) = false := by decide
theorem test_wellFormed_refuses_pop : Instr.wellFormed (.pop 8) = false := by decide
theorem test_wellFormed_refuses_call : Instr.wellFormed (.call 8) = false := by decide
theorem test_wellFormed_accepts : Instr.wellFormed (.load 7 255) = true := by decide

/-- Two roles with one byte. -/
theorem test_table_distinct :
    OpcTable.configure { defaultOpc.table with push := 0x46#8 } = .error .notDistinct := by decide
/-- Print's byte with a count of 2 in bits 7:6. -/
theorem test_table_counts :
    OpcTable.configure { defaultOpc.table with print := 0x87#8 } = .error .wrongCount := by decide
/-- Return's byte with bit 4 clear. -/
theorem test_table_flags :
    OpcTable.configure { defaultOpc.table with ret := 0x02#8 } = .error .wrongFlag := by decide
/-- R7: another table that passes the checks: Halt at 0x02. -/
def otherOpc : Opc := ⟨{ defaultOpc.table with halt := 0x02#8 }, by decide⟩
theorem test_table_other : otherOpc.table.configure = .ok otherOpc := by decide
/-- R7: under it 0x02 halts a run and 0x01 is unknown. -/
theorem test_table_other_run :
    (runForWith otherOpc 1 (start 0 [0x02])).result = some ⟨[], .halted⟩ ∧
    (runForWith otherOpc 1 (start 0 [0x01])).result =
      some ⟨[], .faulted ⟨.unknownInstruction, 0, some 0x01, 1⟩⟩ := by decide

/-! ### Decoding: R57's bit patterns, with R66's operand order -/

theorem test_decode_load : decode defaultOpc [0b10000010#8, 0x03#8, 0xFF#8] = .ok (.load 3 255, []) := by decide
theorem test_decode_print : decode defaultOpc [0b01000111#8, 0x05#8] = .ok (.print 5, []) := by decide
theorem test_decode_halt : decode defaultOpc [0b00000001#8, 0xAA#8] = .ok (.halt, [0xAA#8]) := by decide
theorem test_decode_add : decode defaultOpc [0b10100000#8, 0x00#8, 0x01#8] = .ok (.add 0 1, []) := by decide
theorem test_decode_multiply : decode defaultOpc [0b10100010#8, 0x02#8, 0x04#8] = .ok (.multiply 2 4, []) := by decide
theorem test_decode_push : decode defaultOpc [0b01000101#8, 0x07#8] = .ok (.push 7, []) := by decide
theorem test_decode_pop : decode defaultOpc [0b01000110#8, 0x08#8] = .ok (.pop 8, []) := by decide
theorem test_decode_call : decode defaultOpc [0b01010000#8, 0x01#8] = .ok (.call 1, []) := by decide
theorem test_decode_ret : decode defaultOpc [0b00010001#8] = .ok (.ret, []) := by decide
/-- E7: 0x00 is not a no-op. -/
theorem test_decode_zero : decode defaultOpc [0x00#8] = .error (.unknownOpcode 0x00#8) := by decide
/-- E8: Load's byte with bit 0 flipped. -/
theorem test_decode_flipped : decode defaultOpc [0x83#8, 0x00#8, 0x00#8] = .error (.unknownOpcode 0x83#8) := by decide
/-- R69: `Load R0, 8` as image text. -/
theorem test_imageLines_load : imageLines defaultOpc (.load 0 8) =
    ["10000010".toList, "00000000".toList, "00001000".toList] := by decide
theorem test_decodeTableWord : decodeTableWord 8 0xA0 = some (.add 0 0) := by decide
theorem test_decodeTableWord_wide : decodeTableWord 24 0x0100A2 = some (.multiply 0 1) := by decide
/-- The instruction placed at reset is the one the first step runs: H1 at address 0. -/
theorem test_withFetchWord : statusAfter (State.reset.withFetchWord 8 0x01) = some .halted := by decide

/-! ### The engine (vectors E1 to E10) -/

theorem test_E1 : statusAfter (start 256 []) = some (.faulted ⟨.outOfBounds, 256, none, 256⟩) := by decide
theorem test_E2 : statusAfter (start 255 [0x82]) = some (.faulted ⟨.outOfBounds, 255, some 0x82, 256⟩) := by decide
theorem test_E3 : statusAfter (start 254 [0x82, 0x00]) = some (.faulted ⟨.outOfBounds, 254, some 0x82, 256⟩) := by
  decide
theorem test_E5 : statusAfter (start 255 [0xFF]) = some (.faulted ⟨.unknownInstruction, 255, some 0xFF, 0xFF⟩) := by
  decide
theorem test_E6 : statusAfter (start 254 [0xC5]) = some (.faulted ⟨.unknownInstruction, 254, some 0xC5, 0xC5⟩) := by
  decide
theorem test_idle_has_no_step : step State.reset = .fault .idle := rfl
/-- R101: the record of E5 on the status interface. -/
theorem test_error_code_E5 : (nextOf (step (start 255 [0xFF]))).map (fun t => t.observe.errorCode) = some (some 3) := by
  decide
theorem test_error_codes : [ErrorKind.outOfBounds, .invalidRegister, .unknownInstruction, .stackOverflow,
    .stackUnderflow].map ErrorKind.code = [1, 2, 3, 4, 5] := by decide

/-! ### The instructions: two vectors each -/

/-- L1. -/
theorem test_load : (nextOf (step (start 0 [0x82, 0x03, 0xFF]))).map (fun t => (t.x[3], t.pc)) = some (0xFF, 3) := by
  decide
/-- L2. -/
theorem test_load_invalid :
    statusAfter (start 0 [0x82, 0x08, 0x05]) = some (.faulted ⟨.invalidRegister, 0, some 0x82, 8⟩) := by decide
/-- P-2. -/
theorem test_print_sp : (nextOf (step (start 0 [0x47, 0x07]))).map (fun t => (t.out, t.pc)) = some ([244], 2) := by
  decide
/-- P-3. -/
theorem test_print_invalid : nextOf (step (start 0 [0x47, 0x09])) =
    some ((start 0 [0x47, 0x09]).faultedBy .invalidRegister (some 0x47) 9) := by decide
/-- H1. -/
theorem test_halt : (nextOf (step (start 11 [0x01]))).map (fun t => (t.status, t.pc)) = some (.halted, 12) := by decide
/-- H2 and E4. -/
theorem test_halt_top : (nextOf (step (start 255 [0x01]))).map (fun t => (t.status, t.pc)) = some (.halted, 256) := by
  decide
/-- A1. -/
theorem test_add_wraps : (nextOf (step (start 0 [0xA0, 0x00, 0x01] #v[0xFF, 1, 0, 0, 0, 0, 0, 0xF4]))).map
    (fun t => (t.x[0], t.pc)) = some (0x00, 3) := by decide
/-- A5: a is reported before b. -/
theorem test_add_invalid :
    statusAfter (start 0 [0xA0, 0x09, 0x0A]) = some (.faulted ⟨.invalidRegister, 0, some 0xA0, 9⟩) := by decide
/-- M3. -/
theorem test_multiply_wraps : (nextOf (step (start 0 [0xA2, 0x00, 0x01] #v[0xFF, 0xFF, 0, 0, 0, 0, 0, 0xF4]))).map
    (fun t => (t.x[0], t.x[1])) = some (0x01, 0xFF) := by decide
/-- M6. -/
theorem test_multiply_invalid :
    statusAfter (start 0 [0xA2, 0x00, 0x08]) = some (.faulted ⟨.invalidRegister, 0, some 0xA2, 8⟩) := by decide
/-- U3: the decremented SP is pushed. -/
theorem test_push_sp : (nextOf (step (start 0 [0x45, 0x07]))).map (fun t => (t.x[7], t.mem.read 0xF3)) =
    some (0xF3, 0xF3) := by decide
/-- U5: overflow is checked before the register. -/
theorem test_push_overflow : statusAfter (start 0 [0x45, 0x08] #v[0, 0, 0, 0, 0, 0, 0, 0]) =
    some (.faulted ⟨.stackOverflow, 0, some 0x45, 0⟩) := by decide
/-- O3: SP is the popped value plus 1. -/
theorem test_pop_sp : spPcAfter { start 0 [0x46, 0x07] #v[0, 0, 0, 0, 0, 0, 0, 0xF3] with
    mem := [(0, 0x46), (1, 0x07), (0xF3, 0x10)] } = some (0x11, 2) := by decide
/-- O5: the register is checked before underflow. -/
theorem test_pop_invalid : statusAfter (start 0 [0x46, 0x08] #v[0, 0, 0, 0, 0, 0, 0, 0xFF]) =
    some (.faulted ⟨.invalidRegister, 0, some 0x46, 8⟩) := by decide
/-- C-5: the target is read after the push. -/
theorem test_call_sp : (nextOf (step (start 3 [0x50, 0x07]))).map (fun t => (t.mem.read 0xF3, t.pc)) =
    some (0x05, 0xF3) := by decide
/-- C-8: overflow precedes the other two checks. -/
theorem test_call_overflow : statusAfter (start 254 [0x50, 0x08] #v[0, 0, 0, 0, 0, 0, 0, 0]) =
    some (.faulted ⟨.stackOverflow, 254, some 0x50, 0⟩) := by decide
/-- E10: no operand byte is needed at 255. -/
theorem test_return_top : spPcAfter { start 255 [0x11] #v[0, 0, 0, 0, 0, 0, 0, 0xF3] with
    mem := [(0xF3, 0x09), (255, 0x11)] } = some (0xF4, 9) := by decide
/-- R-2. -/
theorem test_return_underflow : statusAfter (start 0 [0x11] #v[0, 0, 0, 0, 0, 0, 0, 0xFF]) =
    some (.faulted ⟨.stackUnderflow, 0, some 0x11, 255⟩) := by decide

/-! ### The interface and the texts -/

/-- R48. -/
theorem test_load_past_end : hostLoad 256 1 State.reset = .error (.outOfBounds 256) := by decide
/-- R32. -/
theorem test_load_while_running : hostLoad 0 1 (start 0 []) = .error .refused := by decide
/-- R49: a literal of more than 8 digits. -/
theorem test_image_long_literal :
    parseImageLine "000000001".toList = .error (.invalidEncoding "000000001".toList) := by decide
/-- R49: a comment, a blank line, white space. -/
theorem test_image_text :
    parseImage " 10000010 # Load\n# only a comment\n\n00001000".toList = .ok [0x82, 0x08] := by decide
/-- R66, R67: the source's own spelling, a second name, SP and an 0x immediate. -/
theorem test_assembly :
    parseProgram "Load R0,8; PUSH SP; mul R0, R1; LDI R7, 0x10".toList =
      .ok [.load 0 8, .push 7, .multiply 0 1, .load 7 16] := by decide

/-- R34, W6: the output byte 72 printed as one decimal line. -/
theorem test_output_line : Observation.lines ⟨[72], .halted⟩ = ["72".toList] := by decide

/-! ### Witnesses: the hypotheses of each statement can be met, at a boundary where there is one -/

theorem witness_EncodeOfDecode : decode defaultOpc [0x45#8, 0xFF#8, 0x01#8] = .ok (.push 255, [0x01#8]) := by decide
/-- A table that is accepted and one that is rejected. -/
theorem witness_OpcTableChecks : (∃ opc, defaultOpc.table.configure = .ok opc) ∧
    ∃ e, OpcTable.configure { defaultOpc.table with ret := 0x01#8 } = .error e := ⟨⟨_, rfl⟩, ⟨.notDistinct, by decide⟩⟩
theorem witness_IllegalOpcodeFaults :
    (start 255 [0xFF]).status = .running ∧ (start 255 [0xFF]).pc ≤ 255 ∧ (start 255 [0xFF]).mem.read 255 = 0xFF#8 ∧
    ∀ r : Role, defaultOpc.byte r ≠ 0xFF#8 :=
  ⟨rfl, by decide, by decide, fun r => by cases r <;> decide⟩
theorem witness_StepFetchOrder : (start 256 []).status = .running := rfl
theorem witness_StepRunsDecoded : (start 255 [0x11]).status = .running ∧
    decode defaultOpc (bytesFrom (start 255 [0x11]).mem (start 255 [0x11]).pc) = .ok (.ret, []) := by decide
theorem witness_StepExactlyWhenRunning : (∃ t, step (start 0 [0x01]) = .next t) ∧ (start 0 [0x01]).status = .running :=
  ⟨⟨_, rfl⟩, rfl⟩
theorem witness_FaultKeepsEverything : ∃ t e, (start 255 [0xFF]).status = .running ∧
    step (start 255 [0xFF]) = .next t ∧ t.status = .faulted e := ⟨_, _, rfl, rfl, rfl⟩
theorem witness_FaultKeepsEverything_fetch : ∃ t e, (start 256 []).status = .running ∧
    step (start 256 []) = .next t ∧ t.status = .faulted e ∧ ¬ (start 256 []).pc ≤ 255 :=
  ⟨_, _, rfl, rfl, rfl, by decide⟩
theorem witness_PcMux_completes : ∃ t, exec (.call 7) (start 3 []) = .next t ∧ t.status.isFaulted = false :=
  ⟨_, rfl, rfl⟩
theorem witness_PcMux_faults : ∃ t, exec (.call 8) (start 3 []) = .next t ∧ t.status.isFaulted = true :=
  ⟨_, rfl, rfl⟩
theorem witness_HaltedOnlyByHalt : (start 255 [0x01]).status = .running ∧ (start 255 [0x01]).pc ≤ 255 ∧
    (start 255 [0x01]).mem.read 255 = defaultOpc.byte .halt := by decide
theorem witness_HaltedOnlyByHalt_reached : ∃ t, step (start 255 [0x01]) = .next t ∧ t.status = .halted :=
  ⟨_, rfl, rfl⟩
/-- LoadWritesRegister, PrintEmitsRegister, AddWrapsModulo256 and MultiplyWrapsModulo256. -/
theorem witness_register_operands : (7#8).toNat < 8 ∧ (0#8).toNat < 8 := by decide
/-- PushStoresBelowSp at SP = 1 (U6). -/
theorem witness_PushStoresBelowSp :
    (7#8).toNat < 8 ∧ (start 10 [] #v[0x77, 0, 0, 0, 0, 0, 0, 1]).x[7] ≠ 0 := by decide
/-- PopLoadsAtSp for R7, with a popped byte of 254. -/
theorem witness_PopLoadsAtSp : ∃ h : (7#8).toNat < 8,
    ((start 0 []).x.set (7#8).toNat (Memory.read [(0xF4, 0xFE#8)] (start 0 []).x[7].toNat) h)[7] ≠ 0xFF#8 := by decide
/-- CallPushesAndJumps at h = 253 (C-7). -/
theorem witness_CallPushesAndJumps :
    (1#8).toNat < 8 ∧ (start 253 []).x[7] ≠ 0 ∧ (start 253 []).pc + 2 ≤ 255 := by decide
theorem witness_ReturnPopsPc : (start 0 [] #v[0, 0, 0, 0, 0, 0, 0, 0xFE]).x[7] ≠ 0xFF#8 := by decide
/-- The steps at a Load: past the end, completing, and raising InvalidRegister. -/
theorem witness_LoadStep : ∀ s ∈ [start 254 [0x82, 0x00], start 253 [0x82, 0x07, 0x01], start 0 [0x82, 0x08, 0x05]],
    s.status = .running ∧ s.pc ≤ 255 ∧ s.mem.read s.pc = defaultOpc.byte .load := by decide
theorem witness_PrintStep : ∀ s ∈ [start 255 [0x47], start 254 [0x47, 0x07], start 0 [0x47, 0x08]],
    s.status = .running ∧ s.pc ≤ 255 ∧ s.mem.read s.pc = defaultOpc.byte .print := by decide
theorem witness_HaltStep : (start 255 [0x01]).status = .running ∧ (start 255 [0x01]).pc ≤ 255 ∧
    (start 255 [0x01]).mem.read (start 255 [0x01]).pc = defaultOpc.byte .halt := by decide
theorem witness_AddStep : ∀ s ∈ [start 254 [0xA0, 0x00], start 253 [0xA0, 0x07, 0x07], start 0 [0xA0, 0x09, 0x0A],
      start 0 [0xA0, 0x00, 0x08]],
    s.status = .running ∧ s.pc ≤ 255 ∧ s.mem.read s.pc = defaultOpc.byte .add := by decide
theorem witness_MultiplyStep : ∀ s ∈ [start 254 [0xA2, 0x00], start 253 [0xA2, 0x07, 0x07], start 0 [0xA2, 0x08, 0x00],
      start 0 [0xA2, 0x00, 0x08]],
    s.status = .running ∧ s.pc ≤ 255 ∧ s.mem.read s.pc = defaultOpc.byte .multiply := by decide
theorem witness_PushStep : ∀ s ∈ [start 255 [0x45], start 0 [0x45, 0x08] #v[0, 0, 0, 0, 0, 0, 0, 0],
      start 254 [0x45, 0x07] #v[0, 0, 0, 0, 0, 0, 0, 1], start 0 [0x45, 0x08]],
    s.status = .running ∧ s.pc ≤ 255 ∧ s.mem.read s.pc = defaultOpc.byte .push := by decide
theorem witness_PopStep : ∀ s ∈ [start 255 [0x46], start 0 [0x46, 0x08] #v[0, 0, 0, 0, 0, 0, 0, 0xFF],
      start 254 [0x46, 0x00] #v[0, 0, 0, 0, 0, 0, 0, 0xFF], start 0 [0x46, 0x07]],
    s.status = .running ∧ s.pc ≤ 255 ∧ s.mem.read s.pc = defaultOpc.byte .pop := by decide
theorem witness_CallStep : ∀ s ∈ [start 255 [0x50], start 254 [0x50, 0x08] #v[0, 0, 0, 0, 0, 0, 0, 0],
      start 254 [0x50, 0x01], start 253 [0x50, 0x01], start 3 [0x50, 0x08]],
    s.status = .running ∧ s.pc ≤ 255 ∧ s.mem.read s.pc = defaultOpc.byte .call := by decide
theorem witness_ReturnStep : ∀ s ∈ [start 0 [0x11] #v[0, 0, 0, 0, 0, 0, 0, 0xFF], start 255 [0x11]],
    s.status = .running ∧ s.pc ≤ 255 ∧ s.mem.read s.pc = defaultOpc.byte .ret := by decide
/-- RegisterFrame, MemoryFrame and OutputAndStatusFrame: each instruction answers a next state. -/
theorem witness_frames : ∀ i ∈ [Instr.load 3 1, .print 0, .halt, .add 0 1, .multiply 0 1, .push 0, .pop 0, .call 0, .ret],
    (nextOf (exec i (start 0 []))).isSome = true := by decide
/-- MemoryFrame: an address that is not the one stored to. -/
theorem witness_MemoryFrame : 0xF4 ≠ pushAddress (start 0 []) := by decide
theorem witness_MemoryOperations : 255 < 256 ∧ 255 ≤ 255 ∧ 254 ≠ 255 := by decide
theorem witness_RegisterOperations : 7 < (8#8).toNat ∧ (7#8).toNat ≤ 7 ∧ 255#8 ≠ 7#8 := by decide
theorem witness_CanonicalMemoryUnique : Memory.wf [(0, 1#8), (255, 2#8)] = true := by decide
/-- Program P5: SP = 9 at the Push at 6, and x0 is the Halt byte. -/
theorem witness_PushedByteIsNextOpcode : (0#8).toNat < 7 ∧
    (start 6 [0x45, 0x00, 0xFF] #v[1, 0, 0, 0, 0, 0, 0, 9]).x[7].toNat =
      (start 6 [0x45, 0x00, 0xFF] #v[1, 0, 0, 0, 0, 0, 0, 9]).pc + 3 ∧
    (start 6 [0x45, 0x00, 0xFF] #v[1, 0, 0, 0, 0, 0, 0, 9]).x[(0#8).toNat] = defaultOpc.byte .halt := by decide
theorem witness_StepKeepsInv : (start 255 [0xFF]).Inv ∧ ∃ t, step (start 255 [0xFF]) = .next t :=
  ⟨⟨by decide, by decide, trivial⟩, ⟨_, rfl⟩⟩
/-- A state with an error record that the invariant admits. -/
theorem witness_Inv_faulted :
    ((start 255 [0x82]).faultedBy .outOfBounds (some 0x82#8) 256).Inv := by
  refine ⟨by decide, by decide, rfl, ?_, rfl, ?_⟩ <;> decide
theorem witness_ResetHasInv : Memory.wf [(0xF4, 0x3C#8)] = true := by decide
theorem witness_EventsKeepInv : State.reset.Inv := ⟨by decide, by decide, trivial⟩
theorem witness_OnlyPushAndCallWriteMemory : ∃ t, step (start 0 [0x45, 0x07]) = .next t ∧
    t.mem.read 0xF3 ≠ (start 0 [0x45, 0x07]).mem.read 0xF3 := ⟨_, rfl, by decide⟩
theorem witness_OutputOnlyByPrint : ∃ t, step (start 0 [0x47, 0x07]) = .next t ∧ t.out ≠ (start 0 [0x47, 0x07]).out :=
  ⟨_, rfl, by decide⟩
theorem witness_TerminalStatusesAbsorb : Status.halted.isTerminal ∧
    (Status.faulted ⟨.stackOverflow, 0, some 0x45#8, 0⟩).isTerminal := ⟨.inl rfl, .inr rfl⟩
theorem witness_StatusTransitions : (State.reset.afterWith defaultOpc .run).status = .running ∧
    ((start 0 [0x01]).afterWith defaultOpc .step).status = .halted ∧
    ((start 0 [0x00]).afterWith defaultOpc .step).status.isFaulted = true := by decide
/-- Each way a run can be, at the least fuel and at more: not started, ended with a Halt and with a fault, ended
before its first step, and out of fuel. -/
theorem witness_RunEndsHaltedOrFaulted : runForWith defaultOpc 1 State.reset = .notStarted ∧
    (∃ t, runForWith defaultOpc 1 (start 0 [0x01]) = .ended t ∧ t.status = .halted) ∧
    (∃ t, runForWith defaultOpc 2 (start 0 [0x00]) = .ended t ∧ t.status.isFaulted = true) ∧
    runForWith defaultOpc 0 ((start 0 []).setStatus .halted) = .ended ((start 0 []).setStatus .halted) ∧
    (∃ t, runForWith defaultOpc 0 (start 0 [0x01]) = .outOfFuel t) :=
  ⟨rfl, ⟨_, rfl, rfl⟩, ⟨_, rfl, rfl⟩, rfl, ⟨_, rfl⟩⟩
/-- StepsTo: one step to Halted. -/
theorem witness_StepsTo : ∃ t, StepsTo defaultOpc 1 (start 0 [0x01]) t ∧ t.status.isTerminal :=
  ⟨_, .next rfl (.refl _), .inl rfl⟩
/-- PushPopRoundTrip and PushReturnJumps, at the last register that is not R7 and SP = 1. -/
theorem witness_PushPopRoundTrip :
    (6#8).toNat < 7 ∧ (start 0 [] #v[0, 0, 0, 0, 0, 0, 0, 1]).x[7] ≠ 0 := by decide
theorem witness_CallReturnResumes : ∃ t, (1#8).toNat < 8 ∧ (start 253 []).x[7] ≠ 0 ∧ (start 253 []).pc + 2 ≤ 255 ∧
    exec (.call 1) (start 253 []) = .next t ∧ t.x[7] = t.x[7] ∧ t.mem.read t.x[7].toNat = t.mem.read t.x[7].toNat :=
  ⟨_, by decide, by decide, by decide, rfl, rfl, rfl⟩
theorem witness_StackCapacity : (∀ a ∈ [7#8, 0#8], a.toNat < 8) ∧
    [7#8, 0#8].length ≤ (start 0 [] #v[0, 0, 0, 0, 0, 0, 0, 2]).x[7].toNat ∧
    [7#8, 0#8].length = (start 0 [] #v[0, 0, 0, 0, 0, 0, 0, 2]).x[7].toNat := by decide
theorem witness_CallDepth : (start 253 [] #v[253, 0, 0, 0, 0, 0, 0, 2]).pc ≤ 253 ∧
    (∀ a ∈ [0#8, 0#8], ∃ h : a.toNat < 7, (start 253 [] #v[253, 0, 0, 0, 0, 0, 0, 2]).x[a.toNat].toNat ≤ 253) ∧
    [0#8, 0#8].length = (start 253 [] #v[253, 0, 0, 0, 0, 0, 0, 2]).x[7].toNat := by decide
theorem witness_RunEntry : State.reset.status = .idle ∧ (start 0 []).status ≠ .idle := by decide
theorem witness_LoadOnlyInIdle : (start 0 []).status ≠ .idle ∧ State.reset.status = .idle ∧ 255 < 256 ∧ 255 ≤ 255 := by
  decide
theorem witness_BootLoadsImage : (List.replicate 256 0x01#8).length ≤ 256 := by rw [List.length_replicate]
theorem witness_LongImageAborts : State.reset.status = .idle ∧ 256 < (List.replicate 257 0x01#8).length :=
  ⟨rfl, by rw [List.length_replicate]; decide⟩
theorem witness_AssemblyTextParses : Instr.wellFormed (.load 7 255) = true ∧ Instr.wellFormed .ret = true := by decide

end Sys2Proof.Tests
end

/-! PROOFS. The opcode table as a configuration (R7, R58), and a step that faults (R10, R80, R104). -/

namespace Sys2Proof

/-! ### What `configure` answers -/

/-- R7, R58: the configuration answered is the one with the very table that was given. -/
theorem OpcTable.configure_eq_ok {t : OpcTable} {opc : Opc} : t.configure = .ok opc ↔ opc.table = t := by
  constructor
  · intro h
    cases hv : t.valid with
    | true =>
      rw [OpcTable.configure_of_valid hv] at h
      cases h
      rfl
    | false =>
      obtain ⟨e, he⟩ := OpcTable.configure_of_invalid hv
      rw [he] at h
      cases h
  · rintro rfl
    exact OpcTable.configure_of_valid opc.valid

/-- A table is accepted exactly when it is valid. -/
theorem OpcTable.exists_configure_eq_ok {t : OpcTable} : (∃ opc, t.configure = .ok opc) ↔ t.valid = true := by
  simp only [OpcTable.configure_eq_ok]
  constructor
  · rintro ⟨opc, rfl⟩
    exact opc.valid
  · intro hv
    exact ⟨⟨t, hv⟩, rfl⟩

/-- A table is rejected exactly when no configuration has it. -/
theorem OpcTable.exists_configure_eq_error {t : OpcTable} :
    (∃ e, t.configure = .error e) ↔ ∀ opc : Opc, opc.table ≠ t := by
  simp only [ne_eq, ← OpcTable.configure_eq_ok]
  cases t.configure <;> simp

/-- Settles O4: the three checks are `OpcTable.valid_iff`, with the operand count read as a quotient. -/
theorem opcTableChecks : Obligations.OpcTableChecks := by
  refine ⟨fun t => ?_, fun _ _ => OpcTable.configure_eq_ok, fun _ => OpcTable.exists_configure_eq_error,
    OpcTable.configure_eq_ok.2 rfl⟩
  rw [OpcTable.exists_configure_eq_ok, OpcTable.valid_iff]
  simp only [opcodeCount_eq_div, opcodeSetsPc]

end Sys2Proof

namespace Sys2Proof.Machine

/-! ### An instruction by what its handler answers -/

/-- R80, R104: fault entry leaves the state the claims write out. -/
theorem takeFault_eq_faultedBy (e : Raise) (op : Option Byte) (s : State) :
    takeFault e op s = s.faultedBy e.kind op e.detail := rfl

/-- R77, R78: a handler that completes is followed by the advance and, for Halt, the move to Halted; the table is
not looked at. -/
theorem execWith_of_handle_ok {i : Instr} {s u : State} (h : handle i s = .ok u) (opc : Opc) :
    execWith opc i s = .next (haltIf i.role (advancePc i.role u)) := by
  rw [execWith, h, conclude]

/-- R10, R80: a handler that raises is followed by fault entry from the state it began in. -/
theorem execWith_of_handle_error {i : Instr} {s : State} {e : Raise} (h : handle i s = .error e) (opc : Opc) :
    execWith opc i s = .next (s.faultedBy e.kind (some (opc.byte i.role)) e.detail) := by
  rw [execWith, h, conclude, takeFault_eq_faultedBy]

/-- Settles O10: the handler does not see the table, so the two runs differ at most in the byte fault entry
records. -/
theorem opcTableOnlyInRecord : Obligations.OpcTableOnlyInRecord := by
  intro opc i s
  rw [exec_eq_execWith]
  cases h : handle i s with
  | ok u => exact .inl ⟨_, execWith_of_handle_ok h _, execWith_of_handle_ok h _⟩
  | error e => exact .inr ⟨_, _, execWith_of_handle_error h _, execWith_of_handle_error h _⟩

/-! ### A step that faults -/

/-- R78: only Halt's own step moves the status after a handler. -/
theorem haltIf_status (r : Role) (s : State) :
    (haltIf r s).status = if r = .halt then .halted else s.status := by
  simp only [haltIf]
  split <;> rfl

/-- An instruction that leaves a Running machine Faulted raised, and took the fault from the state it began in. -/
theorem execWith_faulted {opc : Opc} {i : Instr} {s t : State} {e : ErrorRecord} (hs : s.status = .running)
    (h : execWith opc i s = .next t) (he : t.status = .faulted e) :
    ∃ ra, handle i s = .error ra ∧ t = takeFault ra (some (opc.byte i.role)) s := by
  obtain ⟨u, hu, rfl⟩ | hraised := conclude_next h
  · rw [haltIf_status, advancePc_status, handle_status hu, hs] at he
    split at he <;> cases he
  · exact hraised

/-- R26, R80: a step that faults, in its fetch or in its instruction, is fault entry with the byte at the pc, or
with none when the pc is past the end of memory. -/
theorem stepWith_faulted {opc : Opc} {s t : State} {e : ErrorRecord} (h : stepWith opc s = .next t)
    (he : t.status = .faulted e) : ∃ ra, t = takeFault ra (s.mem.byteAt? s.pc) s := by
  obtain ⟨i, hf, hx⟩ | ⟨hpc, rfl⟩ | ⟨hpc, -, rfl⟩ | ⟨k, hpc, -, -, rfl⟩ := stepWith_next h
  · obtain ⟨ra, -, rfl⟩ := execWith_faulted (running_of_stepWith h) hx he
    obtain ⟨hpc, hop, -⟩ := fetch_ok hf
    exact ⟨ra, by rw [Memory.byteAt?_of_le (by omega), hop]⟩
  · exact ⟨_, by rw [Memory.byteAt?_of_gt hpc]⟩
  · exact ⟨_, by rw [Memory.byteAt?_of_le hpc]⟩
  · exact ⟨_, by rw [Memory.byteAt?_of_le hpc]⟩

/-- R36, R43: a byte is there exactly at the addresses up to 255. -/
theorem Memory.byteAt?_eq_ite (m : Memory) (a : Nat) :
    m.byteAt? a = if a ≤ 255 then some (m.read a) else none := by
  split
  · exact Memory.byteAt?_of_le ‹_›
  · exact Memory.byteAt?_of_gt (by omega)

/-- Settles O11: the step is fault entry (`stepWith_faulted`), which writes the status alone. -/
theorem faultKeepsEverything : Obligations.FaultKeepsEverything := by
  intro s t e _ h he
  rw [step_eq_stepWith] at h
  obtain ⟨ra, rfl⟩ := stepWith_faulted h he
  cases he
  exact ⟨rfl, rfl, Memory.byteAt?_eq_ite ..⟩

/-- Settles O9, by the law that exec is the default table's `execWith`. -/
theorem stepIsConfiguredStep : Obligations.StepIsConfiguredStep :=
  step_eq_stepWith

end Sys2Proof.Machine

/-! PROOFS. Registers, output and status: what the operations over them answer, what every instruction leaves
unchanged, and the invariant of a run (spec/10_state.md). -/

namespace Sys2Proof

/-- R17, the writes column: the registers an instruction may write. -/
def Instr.writtenRegs : Instr → List Nat
  | .load a _ | .add a _ | .multiply a _ => [a.toNat]
  | .print _ | .halt => []
  | .push _ | .call _ | .ret => [7]
  | .pop a => [a.toNat, 7]

theorem Instr.eq_halt_of_role {i : Instr} (h : i.role = .halt) : i = .halt := by
  cases i with
  | halt => rfl
  | load | print | add | multiply | push | pop | call | ret => cases h

end Sys2Proof

namespace Sys2Proof.Machine

/-! ### The two register operations (R14) -/

theorem readReg_of_lt {a : Byte} (h : a.toNat < 8) (s : State) : readReg a s = .ok s.x[a.toNat] := by
  rw [readReg_eq, dif_pos h]

theorem readReg_of_ge {a : Byte} (h : ¬ a.toNat < 8) (s : State) : readReg a s = .error (.invalidRegister a) := by
  rw [readReg_eq, dif_neg h]

theorem writeReg_of_lt {a : Byte} (h : a.toNat < 8) (v : Byte) (s : State) :
    writeReg a v s = .ok { s with x := s.x.set a.toNat v h } := by
  rw [writeReg_eq, dif_pos h]

theorem writeReg_of_ge {a : Byte} (h : ¬ a.toNat < 8) (v : Byte) (s : State) :
    writeReg a v s = .error (.invalidRegister a) := by
  rw [writeReg_eq, dif_neg h]

/-- R14: a read after a write, at the same and at every other operand byte. -/
theorem readReg_set (a b v : Byte) (s : State) (h : a.toNat < 8) :
    readReg b { s with x := s.x.set a.toNat v h } = if b = a then .ok v else readReg b s := by
  by_cases hba : b = a
  · subst hba
    rw [readReg_of_lt h, Vector.getElem_set_self, if_pos rfl]
  · have hne : a.toNat ≠ b.toNat := fun e => hba (BitVec.eq_of_toNat_eq e.symm)
    rw [if_neg hba, readReg_eq, readReg_eq]
    simp only [Vector.getElem_set_ne _ _ hne]

/-- Settles O58, by the closed forms of the two operations and the read after a write. -/
theorem registerOperations : Obligations.RegisterOperations := by
  intro a v s
  refine ⟨fun h => ?_, fun h => ?_⟩
  · have ha : ¬ a.toNat < 8 := by omega
    exact ⟨readReg_of_ge ha s, writeReg_of_ge ha v s⟩
  · have ha : a.toNat < 8 := by omega
    refine ⟨readReg_of_lt ha s, _, writeReg_of_lt ha v s, ?_, fun b hb => ?_, rfl⟩
    · rw [readReg_set, if_pos rfl]
    · rw [readReg_set, if_neg hb]

/-! ### The interface operations by the status (R31 to R33) -/

theorem hostRun_of_idle {s : State} (h : s.status = .idle) : hostRun s = .ok { s with status := .running } := by
  rw [hostRun, h]
  rfl

theorem hostRun_of_not_idle {s : State} (h : s.status ≠ .idle) : hostRun s = .error .refused := by
  unfold hostRun
  split
  · exact absurd ‹_› h
  all_goals rfl

theorem hostLoad_of_idle {s : State} (h : s.status = .idle) (a : Nat) (v : Byte) :
    hostLoad a v s =
      if a < memSize then .ok { s with mem := s.mem.write a v } else .error (.outOfBounds a) := by
  by_cases ha : a < memSize
  · simp only [hostLoad, h, memWrite, if_pos ha]
  · simp only [hostLoad, h, memWrite, if_neg ha]

theorem hostLoad_of_not_idle {s : State} (h : s.status ≠ .idle) (a : Nat) (v : Byte) :
    hostLoad a v s = .error .refused := by
  unfold hostLoad
  split
  · exact absurd ‹_› h
  all_goals rfl

/-- R32: a `load` that is refused, or out of bounds, has no effect. -/
theorem State.afterWith_load_of_error {opc : Opc} {s : State} {a : Nat} {v : Byte} {e : HostError}
    (h : hostLoad a v s = .error e) : s.afterWith opc (.load a v) = s := by
  rw [State.afterWith, h]

/-- Settles O52, by the status. -/
theorem runEntry : Obligations.RunEntry :=
  fun _ => ⟨hostRun_of_idle, hostRun_of_not_idle⟩

/-- Settles O53, by the status and, in Idle, by the address. -/
theorem loadOnlyInIdle : Obligations.LoadOnlyInIdle := by
  intro a v s
  refine ⟨fun hs => ?_, fun hs ha => ?_, fun hs ha => ?_⟩
  · have hl := hostLoad_of_not_idle hs a v
    exact ⟨hl, State.afterWith_load_of_error hl⟩
  · have hl : hostLoad a v s = .error (.outOfBounds a) := by
      rw [hostLoad_of_idle hs, if_neg (Nat.not_lt.2 ha)]
    exact ⟨hl, (congrArg State.status (State.afterWith_load_of_error hl)).trans hs⟩
  · rw [hostLoad_of_idle hs, if_pos (Nat.lt_succ_of_le ha)]

/-- R31: everything an event can do: nothing, or what the operation or the step of that name does. -/
theorem State.afterWith_cases (opc : Opc) (s : State) (ev : Event) :
    s.afterWith opc ev = s ∨
    (∃ a v, ev = .load a v ∧ s.status = .idle ∧ a ≤ 255 ∧
      s.afterWith opc ev = { s with mem := s.mem.write a v }) ∨
    (ev = .run ∧ s.status = .idle ∧ s.afterWith opc ev = { s with status := .running }) ∨
    (ev = .step ∧ stepWith opc s = .next (s.afterWith opc ev)) := by
  cases ev with
  | load a v =>
    cases h : hostLoad a v s with
    | ok t =>
      obtain ⟨hs, ha, rfl⟩ := hostLoad_ok h
      exact .inr (.inl ⟨a, v, rfl, hs, ha, by rw [State.afterWith, h]⟩)
    | error e => exact .inl (State.afterWith_load_of_error h)
  | run =>
    cases h : hostRun s with
    | ok t =>
      obtain ⟨hs, rfl⟩ := hostRun_ok h
      exact .inr (.inr (.inl ⟨rfl, hs, by rw [State.afterWith, h]⟩))
    | error e => exact .inl (by rw [State.afterWith, h])
  | step =>
    cases h : stepWith opc s with
    | next t => exact .inr (.inr (.inr ⟨rfl, by rw [State.afterWith, h]⟩))
    | fault r => exact .inl (by rw [State.afterWith, h])
    | refused r => exact .inl (by rw [State.afterWith, h])

/-! ### What a handler that completes has done -/

theorem handleLoad_ok {a imm : Byte} {s u : State} (h : handleLoad a imm s = .ok u) :
    ∃ ha : a.toNat < 8, u = { s with x := s.x.set a.toNat imm ha } := by
  rw [handleLoad_eq] at h
  split at h
  · cases h; exact ⟨‹_›, rfl⟩
  · cases h

theorem handlePrint_ok {a : Byte} {s u : State} (h : handlePrint a s = .ok u) :
    ∃ _ha : a.toNat < 8, u = s.emit s.x[a.toNat] := by
  rw [handlePrint_eq] at h
  split at h
  · cases h; exact ⟨‹_›, rfl⟩
  · cases h

theorem handleAlu_ok {f : Byte → Byte → Byte} {a b : Byte} {s u : State} (h : handleAlu f a b s = .ok u) :
    ∃ (ha : a.toNat < 8) (_hb : b.toNat < 8),
      u = { s with x := s.x.set a.toNat (f s.x[a.toNat] s.x[b.toNat]) ha } := by
  rw [handleAlu_eq] at h
  split at h
  · split at h
    · cases h; exact ⟨‹_›, ‹_›, rfl⟩
    · cases h
  · cases h

theorem handlePush_ok {a : Byte} {s u : State} (h : handlePush a s = .ok u) :
    ∃ _ha : a.toNat < 8, s.x[7] ≠ 0 ∧
      u = { s with
        x := s.x.set 7 (s.x[7] - 1)
        mem := s.mem.write (s.x[7].toNat - 1) (s.x.set 7 (s.x[7] - 1))[a.toNat] } := by
  rw [handlePush_eq] at h
  split at h
  · cases h
  · split at h
    · cases h; exact ⟨‹_›, ‹_›, rfl⟩
    · cases h

theorem handlePop_ok {a : Byte} {s u : State} (h : handlePop a s = .ok u) :
    ∃ ha : a.toNat < 8, (s.x.set a.toNat (s.mem.read s.x[7].toNat) ha)[7] ≠ 0xFF#8 ∧
      u = { s with
        x := (s.x.set a.toNat (s.mem.read s.x[7].toNat) ha).set 7
          ((s.x.set a.toNat (s.mem.read s.x[7].toNat) ha)[7] + 1) } := by
  rw [handlePop_eq] at h
  split at h
  · split at h
    · cases h
    · cases h; exact ⟨‹_›, ‹_›, rfl⟩
  · cases h

theorem handleCall_ok {a : Byte} {s u : State} (h : handleCall a s = .ok u) :
    ∃ _ha : a.toNat < 8, s.x[7] ≠ 0 ∧ s.pc + 2 ≤ 255 ∧
      u = { s with
        x := s.x.set 7 (s.x[7] - 1)
        mem := s.mem.write (s.x[7].toNat - 1) (BitVec.ofNat 8 (s.pc + 2))
        pc := ((s.x.set 7 (s.x[7] - 1))[a.toNat]).toNat } := by
  rw [handleCall_eq] at h
  split at h
  · cases h
  · split at h
    · cases h
    · split at h
      · cases h; exact ⟨‹_›, ‹_›, Nat.le_of_not_lt ‹_›, rfl⟩
      · cases h

theorem handleReturn_ok {s u : State} (h : handleReturn s = .ok u) :
    s.x[7] ≠ 0xFF#8 ∧
      u = { s with x := s.x.set 7 (s.x[7] + 1), pc := (s.mem.read s.x[7].toNat).toNat } := by
  rw [handleReturn_eq] at h
  split at h
  · cases h
  · cases h; exact ⟨‹_›, rfl⟩

/-! ### Frames: registers, output and status (R17, R22, R23, R27) -/

theorem getElem_set_of_not_mem {x : Vector Byte 8} {k r : Nat} {v : Byte} {ks : List Nat} (hk : k < 8) (hr : r < 8)
    (hks : k ∈ ks) (h : r ∉ ks) : (x.set k v)[r] = x[r] :=
  Vector.getElem_set_ne hk hr fun e => h (e ▸ hks)

/-- R17: a handler that completes leaves every register it does not list as written. -/
theorem handle_x_of_not_written {i : Instr} {s u : State} (h : handle i s = .ok u) {r : Nat} (hr : r < 8)
    (hw : r ∉ i.writtenRegs) : u.x[r] = s.x[r] := by
  cases i with
  | load a imm =>
    obtain ⟨ha, rfl⟩ := handleLoad_ok h
    exact getElem_set_of_not_mem ha hr (.head _) hw
  | print a =>
    obtain ⟨-, rfl⟩ := handlePrint_ok h
    rfl
  | halt => cases h; rfl
  | add a b | multiply a b =>
    obtain ⟨ha, -, rfl⟩ := handleAlu_ok h
    exact getElem_set_of_not_mem ha hr (.head _) hw
  | push a =>
    obtain ⟨-, -, rfl⟩ := handlePush_ok h
    exact getElem_set_of_not_mem (by decide) hr (.head _) hw
  | pop a =>
    obtain ⟨ha, -, rfl⟩ := handlePop_ok h
    exact (getElem_set_of_not_mem (by decide) hr (.tail _ (.head _)) hw).trans
      (getElem_set_of_not_mem ha hr (.head _) hw)
  | call a =>
    obtain ⟨-, -, -, rfl⟩ := handleCall_ok h
    exact getElem_set_of_not_mem (by decide) hr (.head _) hw
  | ret =>
    obtain ⟨-, rfl⟩ := handleReturn_ok h
    exact getElem_set_of_not_mem (by decide) hr (.head _) hw

/-- R17, R80: so does the whole instruction, which writes no register after its handler and none when it faults. -/
theorem execWith_x_of_not_written {opc : Opc} {i : Instr} {s t : State} (h : execWith opc i s = .next t) {r : Nat}
    (hr : r < 8) (hw : r ∉ i.writtenRegs) : t.x[r] = s.x[r] := by
  obtain ⟨u, hu, rfl⟩ | ⟨ra, -, rfl⟩ := conclude_next h
  · simpa only [haltIf_x, advancePc_x] using handle_x_of_not_written hu hr hw
  · rfl

/-- Settles O32: the registers each case of the statement lets change are `Instr.writtenRegs`. -/
theorem registerFrame : Obligations.RegisterFrame := by
  intro i s t h r hr
  rw [exec_eq_execWith] at h
  have hframe := execWith_x_of_not_written h hr
  cases i with
  | print | halt => exact hframe (List.not_mem_nil)
  | load | add | multiply | push | call | ret => exact fun hne => hframe (by simpa [Instr.writtenRegs] using hne)
  | pop => exact fun hne h7 => hframe (by simp [Instr.writtenRegs, hne, h7])

/-- R27: a handler that completes leaves the output log, or is Print's and appends its register's byte. -/
theorem handle_out {i : Instr} {s u : State} (h : handle i s = .ok u) :
    u.out = s.out ∨ ∃ (a : Byte) (_ha : a.toNat < 8), i = .print a ∧ u.out = s.out ++ [s.x[a.toNat]] := by
  cases i with
  | load a imm =>
    obtain ⟨-, rfl⟩ := handleLoad_ok h
    exact .inl rfl
  | print a =>
    obtain ⟨ha, rfl⟩ := handlePrint_ok h
    exact .inr ⟨a, ha, rfl, rfl⟩
  | halt => cases h; exact .inl rfl
  | add a b | multiply a b =>
    obtain ⟨-, -, rfl⟩ := handleAlu_ok h
    exact .inl rfl
  | push a =>
    obtain ⟨-, -, rfl⟩ := handlePush_ok h
    exact .inl rfl
  | pop a =>
    obtain ⟨-, -, rfl⟩ := handlePop_ok h
    exact .inl rfl
  | call a =>
    obtain ⟨-, -, -, rfl⟩ := handleCall_ok h
    exact .inl rfl
  | ret =>
    obtain ⟨-, rfl⟩ := handleReturn_ok h
    exact .inl rfl

/-- R10, R27: the same of the whole instruction; nothing is emitted when it faults. -/
theorem execWith_out {opc : Opc} {i : Instr} {s t : State} (h : execWith opc i s = .next t) :
    t.out = s.out ∨ ∃ (a : Byte) (_ha : a.toNat < 8), i = .print a ∧ t.out = s.out ++ [s.x[a.toNat]] := by
  obtain ⟨u, hu, rfl⟩ | ⟨ra, -, rfl⟩ := conclude_next h
  · simpa only [haltIf_out, advancePc_out] using handle_out hu
  · exact .inl rfl

/-- R23, R25: an instruction leaves the status, or faulted, or is Halt and halted. -/
theorem execWith_status {opc : Opc} {i : Instr} {s t : State} (h : execWith opc i s = .next t) :
    t.status = s.status ∨ t.status.isFaulted = true ∨ (i = .halt ∧ t.status = .halted) := by
  obtain ⟨u, hu, rfl⟩ | ⟨ra, -, rfl⟩ := conclude_next h
  · rw [haltIf_status, advancePc_status, handle_status hu]
    split
    · exact .inr (.inr ⟨Instr.eq_halt_of_role ‹_›, rfl⟩)
    · exact .inl rfl
  · exact .inr (.inl rfl)

/-- Settles O34, by what an instruction does to the log and to the status. -/
theorem outputAndStatusFrame : Obligations.OutputAndStatusFrame := by
  intro i s t h
  rw [exec_eq_execWith] at h
  refine ⟨?_, execWith_status h⟩
  obtain hout | ⟨a, -, hi, -⟩ := execWith_out h
  · exact .inl hout
  · exact .inr ⟨a, hi⟩

/-- Settles O42: a step that faults in its fetch keeps the log, and the instruction fetched is the decoded one. -/
theorem outputOnlyByPrint : Obligations.OutputOnlyByPrint := by
  refine ⟨fun _ _ => rfl, fun s t h hout => ?_⟩
  rw [step_eq_stepWith] at h
  obtain ⟨i, hf, hx⟩ | ⟨-, rfl⟩ | ⟨-, -, rfl⟩ | ⟨-, -, -, -, rfl⟩ := stepWith_next h
  · obtain hsame | ⟨a, ha, rfl, happ⟩ := execWith_out hx
    · exact absurd hsame hout
    · obtain ⟨rest, hd⟩ := decode_of_fetch hf
      exact ⟨a, rest, ha, hd, happ⟩
  all_goals exact absurd rfl hout

/-- R25: the status after a step is Running still, or Faulted, or Halted by a decoded Halt. -/
theorem stepWith_status {opc : Opc} {s t : State} (h : stepWith opc s = .next t) :
    t.status = s.status ∨ t.status.isFaulted = true ∨
    (t.status = .halted ∧ ∃ rest, decode opc (bytesFrom s.mem s.pc) = .ok (.halt, rest)) := by
  obtain ⟨i, hf, hx⟩ | ⟨-, rfl⟩ | ⟨-, -, rfl⟩ | ⟨-, -, -, -, rfl⟩ := stepWith_next h
  · obtain hsame | hfault | ⟨rfl, hhalt⟩ := execWith_status hx
    · exact .inl hsame
    · exact .inr (.inl hfault)
    · exact .inr (.inr ⟨hhalt, decode_of_fetch hf⟩)
  all_goals exact .inr (.inl rfl)

/-- Settles O43, by what an event can do (`State.afterWith_cases`) and a step's status. -/
theorem statusTransitions : Obligations.StatusTransitions := by
  intro opc s ev
  obtain hsame | ⟨a, v, -, -, -, hload⟩ | ⟨hev, hidle, hrun⟩ | ⟨hev, hstep⟩ := State.afterWith_cases opc s ev
  · exact .inl (by rw [hsame])
  · exact .inl (by rw [hload])
  · exact .inr (.inl ⟨hidle, hev, by rw [hrun]⟩)
  · have hrunning := running_of_stepWith hstep
    obtain hst | hfault | ⟨hhalt, hdecode⟩ := stepWith_status hstep
    · exact .inl hst
    · exact .inr (.inr (.inr ⟨hrunning, hev, hfault⟩))
    · exact .inr (.inr (.inl ⟨hrunning, hev, hhalt, hdecode⟩))

/-! ### The invariant of a run (R19, R26, R102) -/

/-- R101, R105: everything a handler can raise, and when. -/
theorem handle_error {i : Instr} {s : State} {e : Raise} (h : handle i s = .error e) :
    (∃ a ∈ i.operands, 8 ≤ a.toNat ∧ e = .invalidRegister a) ∨
    (s.x[7] = 0 ∧ e = .stackOverflow 0) ∨
    e = .stackUnderflow 0xFF#8 ∨
    (i.role = .call ∧ 255 < s.pc + 2 ∧ e = .outOfBounds (s.pc + 2)) := by
  cases i with
  | load a | print a =>
    simp only [handle, handleLoad_eq, handlePrint_eq] at h
    split at h
    · cases h
    · cases h; exact .inl ⟨a, .head _, Nat.le_of_not_lt ‹_›, rfl⟩
  | halt => cases h
  | add a b | multiply a b =>
    simp only [handle, handleAdd, handleMultiply, handleAlu_eq] at h
    split at h
    · split at h
      · cases h
      · cases h; exact .inl ⟨b, .tail _ (.head _), Nat.le_of_not_lt ‹_›, rfl⟩
    · cases h; exact .inl ⟨a, .head _, Nat.le_of_not_lt ‹_›, rfl⟩
  | push a =>
    simp only [handle, handlePush_eq] at h
    split at h
    · cases h; exact .inr (.inl ⟨‹_›, rfl⟩)
    · split at h
      · cases h
      · cases h; exact .inl ⟨a, .head _, Nat.le_of_not_lt ‹_›, rfl⟩
  | pop a =>
    simp only [handle, handlePop_eq] at h
    split at h
    · split at h
      · cases h; exact .inr (.inr (.inl rfl))
      · cases h
    · cases h; exact .inl ⟨a, .head _, Nat.le_of_not_lt ‹_›, rfl⟩
  | call a =>
    simp only [handle, handleCall_eq] at h
    split at h
    · cases h; exact .inr (.inl ⟨‹_›, rfl⟩)
    · split at h
      · cases h; exact .inr (.inr (.inr ⟨rfl, ‹_›, rfl⟩))
      · split at h
        · cases h
        · cases h; exact .inl ⟨a, .head _, Nat.le_of_not_lt ‹_›, rfl⟩
  | ret =>
    simp only [handle, handleReturn_eq] at h
    split at h
    · cases h; exact .inr (.inr (.inl rfl))
    · cases h

/-- R74: an operand of a fetched instruction is the first or the second byte after the opcode. -/
theorem fetch_operand {opc : Opc} {s : State} {i : Instr} (h : fetch opc s = .ok i) {a : Byte}
    (ha : a ∈ i.operands) : a = s.mem.read (s.pc + 1) ∨ a = s.mem.read (s.pc + 2) := by
  obtain ⟨-, -, hread⟩ := fetch_ok h
  obtain ⟨k, hk⟩ := List.mem_iff_getElem?.1 ha
  have hlt : k < 2 := by
    have hlen := (List.getElem?_eq_some_iff.1 hk).1
    rw [i.length_operands] at hlen
    exact hlen.trans_le i.role.operandCount_le
  have hka := (hread k a hk).symm
  match k with
  | 0 => exact .inl hka
  | 1 => exact .inr hka

/-- R26, R102: the record of what a fetched instruction's handler raises says what is in the machine. -/
theorem fits_of_handle_error {opc : Opc} {s : State} {i : Instr} {e : Raise} (hf : fetch opc s = .ok i)
    (h : handle i s = .error e) : ErrorRecord.fits opc ⟨e.kind, s.pc, some (opc.byte i.role), e.detail⟩ s := by
  obtain ⟨hpc, hop, -⟩ := fetch_ok hf
  have hbyte : some (opc.byte i.role) = s.mem.byteAt? s.pc := by
    rw [Memory.byteAt?_of_le (by omega), hop]
  refine ⟨rfl, hbyte, ?_⟩
  obtain ⟨a, ha, h8, rfl⟩ | ⟨h0, rfl⟩ | rfl | ⟨hcall, hpast, rfl⟩ := handle_error h
  · exact ⟨h8, (fetch_operand hf ha).imp (congrArg BitVec.toNat) (congrArg BitVec.toNat)⟩
  · exact ⟨rfl, h0⟩
  · rfl
  · have hlast : s.pc + 1 ≤ 255 := by rwa [hcall] at hpc
    exact ⟨show s.pc + 2 = 256 by omega, by omega⟩

/-- R19: a handler that sets the pc sets it to a byte. -/
theorem handle_pc_of_setsPc {i : Instr} {s u : State} (h : handle i s = .ok u) (hp : i.role.setsPc = true) :
    u.pc ≤ 255 := by
  cases i with
  | call a =>
    obtain ⟨-, -, -, rfl⟩ := handleCall_ok h
    exact Nat.le_of_lt_succ (BitVec.isLt _)
  | ret =>
    obtain ⟨-, rfl⟩ := handleReturn_ok h
    exact Nat.le_of_lt_succ (BitVec.isLt _)
  | load | print | halt | add | multiply | push | pop => cases hp

/-- R77: the advance, for a role that does not set the pc itself. -/
theorem advancePc_pc (r : Role) (s : State) :
    (advancePc r s).pc = if r.setsPc then s.pc else s.pc + r.operandCount + 1 := by
  simp only [advancePc]
  split <;> rfl

/-- R19: a fetched instruction that completes leaves the pc in 0..256: a byte it jumped to, or the address just past
its own last byte. -/
theorem advancePc_pc_le {opc : Opc} {s u : State} {i : Instr} (hf : fetch opc s = .ok i) (h : handle i s = .ok u) :
    (advancePc i.role u).pc ≤ 256 := by
  obtain ⟨hpc, -, -⟩ := fetch_ok hf
  rw [advancePc_pc]
  split
  · exact Nat.le_succ_of_le (handle_pc_of_setsPc h ‹_›)
  · rw [handle_pc h (Bool.eq_false_of_not_eq_true ‹_›)]
    exact Nat.succ_le_succ hpc

/-- A state that has not faulted has no record to fit. -/
theorem State.invWith_of_not_faulted {opc : Opc} {s : State} (hm : s.mem.wf = true) (hpc : s.pc ≤ 256)
    (hst : s.status.isFaulted = false) : s.InvWith opc := by
  refine ⟨hm, hpc, ?_⟩
  split
  · rename_i he
    rw [he] at hst
    cases hst
  all_goals trivial

/-- R26: fault entry keeps the invariant when the record fits the state the step began in. -/
theorem takeFault_invWith {opc : Opc} {s : State} {e : Raise} {op : Option Byte} (hm : s.mem.wf = true)
    (hpc : s.pc ≤ 256) (hfits : ErrorRecord.fits opc ⟨e.kind, s.pc, op, e.detail⟩ s) :
    (takeFault e op s).InvWith opc :=
  ⟨hm, hpc, hfits⟩

theorem execWith_keeps_invWith {opc : Opc} {i : Instr} {s t : State} (hf : fetch opc s = .ok i)
    (hs : s.status = .running) (hinv : s.InvWith opc) (h : execWith opc i s = .next t) : t.InvWith opc := by
  obtain ⟨hm, hpc, -⟩ := hinv
  obtain ⟨u, hu, rfl⟩ | ⟨ra, hra, rfl⟩ := conclude_next h
  · refine State.invWith_of_not_faulted ?_ ?_ ?_
    · rw [haltIf_mem, advancePc_mem]
      exact handle_mem_wf hu hm
    · rw [haltIf_pc]
      exact advancePc_pc_le hf hu
    · rw [haltIf_status, advancePc_status, handle_status hu, hs]
      split <;> rfl
  · exact takeFault_invWith hm hpc (fits_of_handle_error hf hra)

/-- R19, R26, R102: a step keeps the invariant, whatever the table: the instruction it runs does, and the record of
a fetch that faults says what the fetch read. -/
theorem stepWith_keeps_invWith {opc : Opc} {s t : State} (hinv : s.InvWith opc) (h : stepWith opc s = .next t) :
    t.InvWith opc := by
  have hrunning := running_of_stepWith h
  have ⟨hm, hpc, _⟩ := hinv
  obtain ⟨i, hf, hx⟩ | ⟨hpast, rfl⟩ | ⟨hle, hnone, rfl⟩ | ⟨k, hle, hlast, -, rfl⟩ := stepWith_next h
  · exact execWith_keeps_invWith hf hrunning hinv hx
  · exact takeFault_invWith hm hpc
      ⟨rfl, (Memory.byteAt?_of_gt hpast).symm, show s.pc = 256 by omega, by omega⟩
  · exact takeFault_invWith hm hpc ⟨rfl, (Memory.byteAt?_of_le hle).symm, _, rfl, rfl, hnone⟩
  · exact takeFault_invWith hm hpc ⟨rfl, (Memory.byteAt?_of_le hle).symm, rfl, hlast⟩

/-- Settles O38: the default table's case of `stepWith_keeps_invWith`. -/
theorem stepKeepsInv : Obligations.StepKeepsInv := by
  intro s t hinv h
  exact stepWith_keeps_invWith hinv (step_eq_stepWith s ▸ h)

/-- Settles O40: an event changes nothing, stores one byte, starts the machine, or is a step. -/
theorem eventsKeepInv : Obligations.EventsKeepInv := by
  intro opc s ev hinv
  have ⟨hm, hpc, _⟩ := hinv
  obtain hsame | ⟨a, v, -, hidle, ha, hload⟩ | ⟨-, -, hrun⟩ | ⟨-, hstep⟩ := State.afterWith_cases opc s ev
  · rwa [hsame]
  · rw [hload]
    exact State.invWith_of_not_faulted (Memory.wf_write v hm (Nat.lt_succ_of_le ha)) hpc
      (congrArg Status.isFaulted hidle)
  · rw [hrun]
    exact State.invWith_of_not_faulted hm hpc rfl
  · exact stepWith_keeps_invWith hinv hstep

end Sys2Proof.Machine

/-! PROOFS. Memory: the two operations over it, who writes it (R37, R38, R51), the loader (R47, R48, R50), and the
image text (R49, R69). -/

namespace Sys2Proof.Machine

/-! ### The two memory operations (R36, R37) -/

theorem memRead_of_le {a : Nat} (h : a ≤ 255) (s : State) : memRead a s = .ok (s.mem.read a) := by
  rw [memRead, if_pos (Nat.lt_succ_of_le h)]

theorem memRead_of_gt {a : Nat} (h : 255 < a) (s : State) : memRead a s = .error (.outOfBounds a) := by
  rw [memRead, if_neg (Nat.not_lt.2 h)]

theorem memWrite_of_le {a : Nat} (h : a ≤ 255) (v : Byte) (s : State) :
    memWrite a v s = .ok { s with mem := s.mem.write a v } := by
  rw [memWrite, if_pos (Nat.lt_succ_of_le h)]

theorem memWrite_of_gt {a : Nat} (h : 255 < a) (v : Byte) (s : State) :
    memWrite a v s = .error (.outOfBounds a) := by
  rw [memWrite, if_neg (Nat.not_lt.2 h)]

/-- R37, R44: a checked read at another address than the one written. -/
theorem memRead_write_of_ne {a b : Nat} (h : b ≠ a) (v : Byte) (s : State) :
    memRead b { s with mem := s.mem.write a v } = memRead b s := by
  simp only [memRead, Memory.read_write, if_neg h]

/-- Settles O35, by the closed forms of the two operations and the read after a write. -/
theorem memoryOperations : Obligations.MemoryOperations := by
  intro a v s
  refine ⟨fun h => ⟨memRead_of_gt h s, memWrite_of_gt h v s⟩, fun h => ?_⟩
  refine ⟨_, memWrite_of_le h v s, ?_, fun b hb => memRead_write_of_ne hb v s, rfl⟩
  rw [memRead_of_le h, Memory.read_write, if_pos rfl]

/-! ### Which instructions write memory, and where (R38, R51) -/

/-- R51: a handler that completes leaves memory, or is Push's or Call's and stores one byte just below SP. -/
theorem handle_mem {i : Instr} {s u : State} (h : handle i s = .ok u) :
    u.mem = s.mem ∨ (∃ a, i = .push a ∨ i = .call a) ∧ ∃ v, u.mem = s.mem.write (pushAddress s) v := by
  cases i with
  | load a imm =>
    obtain ⟨-, rfl⟩ := handleLoad_ok h
    exact .inl rfl
  | print a =>
    obtain ⟨-, rfl⟩ := handlePrint_ok h
    exact .inl rfl
  | halt => cases h; exact .inl rfl
  | add a b | multiply a b =>
    obtain ⟨-, -, rfl⟩ := handleAlu_ok h
    exact .inl rfl
  | push a =>
    obtain ⟨-, -, rfl⟩ := handlePush_ok h
    exact .inr ⟨⟨a, .inl rfl⟩, _, rfl⟩
  | pop a =>
    obtain ⟨-, -, rfl⟩ := handlePop_ok h
    exact .inl rfl
  | call a =>
    obtain ⟨-, -, -, rfl⟩ := handleCall_ok h
    exact .inr ⟨⟨a, .inr rfl⟩, _, rfl⟩
  | ret =>
    obtain ⟨-, rfl⟩ := handleReturn_ok h
    exact .inl rfl

/-- R10, R51: the same of the whole instruction; nothing is stored when it faults. -/
theorem execWith_mem {opc : Opc} {i : Instr} {s t : State} (h : execWith opc i s = .next t) :
    t.mem = s.mem ∨ (∃ a, i = .push a ∨ i = .call a) ∧ ∃ v, t.mem = s.mem.write (pushAddress s) v := by
  obtain ⟨u, hu, rfl⟩ | ⟨ra, -, rfl⟩ := conclude_next h
  · simpa only [haltIf_mem, advancePc_mem] using handle_mem hu
  · exact .inl rfl

/-- Settles O33: memory is as it was, or a Push or a Call stored at `pushAddress`. -/
theorem memoryFrame : Obligations.MemoryFrame := by
  intro i s t h b
  rw [exec_eq_execWith] at h
  obtain hsame | ⟨⟨a, rfl | rfl⟩, v, hstore⟩ := execWith_mem h
  · rw [hsame]
    cases i with
    | push | call => exact fun _ => rfl
    | load | print | halt | add | multiply | pop | ret => rfl
  all_goals
    intro hb
    rw [hstore, Memory.read_write, if_neg hb]

/-- Settles O41: a step that faults in its fetch keeps memory, and the instruction fetched is the decoded one. -/
theorem onlyPushAndCallWriteMemory : Obligations.OnlyPushAndCallWriteMemory := by
  intro s t b h hne
  rw [step_eq_stepWith] at h
  obtain ⟨i, hf, hx⟩ | ⟨-, rfl⟩ | ⟨-, -, rfl⟩ | ⟨-, -, -, -, rfl⟩ := stepWith_next h
  · obtain hsame | ⟨⟨a, hi⟩, -⟩ := execWith_mem hx
    · exact absurd (congrArg (Memory.read · b) hsame) hne
    · obtain ⟨rest, hd⟩ := decode_of_fetch hf
      obtain rfl | rfl := hi
      · exact ⟨a, rest, .inl hd⟩
      · exact ⟨a, rest, .inr hd⟩
  all_goals exact absurd rfl hne

/-! ### A pushed byte that is run (R46, R123) -/

/-- R79: a Running machine's step is the instruction it fetches. -/
theorem stepWith_of_fetch {opc : Opc} {s : State} {i : Instr} (hs : s.status = .running)
    (hf : fetch opc s = .ok i) : stepWith opc s = execWith opc i s := by
  rw [stepWith, stepBy_running hs, hf]

/-- R74: Halt's opcode byte is all its fetch reads. -/
theorem fetch_halt {opc : Opc} {s : State} (hpc : s.pc ≤ 255) (hop : s.mem.read s.pc = opc.byte .halt) :
    fetch opc s = .ok .halt := by
  refine decodeFrom_of_read (i := .halt) ?_ fun k v hk => ?_
  · exact (Memory.byteAt?_of_le hpc).trans (congrArg some hop)
  · cases hk

/-- R78, R87: the whole step at Halt's opcode byte. -/
theorem stepWith_halt {opc : Opc} {s : State} (hs : s.status = .running) (hpc : s.pc ≤ 255)
    (hop : s.mem.read s.pc = opc.byte .halt) :
    stepWith opc s = .next { s with pc := s.pc + 1, status := .halted } := by
  rw [stepWith_of_fetch hs (fetch_halt hpc hop)]
  rfl

/-- R93: a Push of R0 to R6 with room on the stack stores that register's byte below SP and advances by 2. -/
theorem execWith_push_of_lt {a : Byte} {s : State} (ha : a.toNat < 7) (h0 : s.x[7] ≠ 0) (opc : Opc) :
    execWith opc (.push a) s = .next { s with
      x := s.x.set 7 (s.x[7] - 1)
      mem := s.mem.write (s.x[7].toNat - 1) s.x[a.toNat]
      pc := s.pc + 2 } := by
  have h := handlePush_eq a s
  rw [if_neg h0, dif_pos (by omega), Vector.getElem_set_ne _ _ (by omega)] at h
  exact execWith_of_handle_ok (i := .push a) h opc

/-- Settles O37: the Push stores at pc + 2, where it leaves the pc, so the next step is Halt's. -/
theorem pushedByteIsNextOpcode : Obligations.PushedByteIsNextOpcode := by
  intro a s ha hs hsp hbyte
  have h0 : s.x[7] ≠ 0 := fun e => by
    rw [e] at hsp
    exact absurd hsp (Nat.succ_ne_zero _).symm
  have hlast : s.pc + 2 ≤ 255 := by
    have := s.x[7].isLt
    omega
  refine ⟨_, (exec_eq_execWith ..).trans (execWith_push_of_lt ha h0 _), rfl, ?_⟩
  rw [step_eq_stepWith]
  refine stepWith_halt hs hlast ?_
  have haddr : s.pc + 2 = s.x[7].toNat - 1 := by omega
  rw [haddr, Memory.read_write, if_pos rfl, hbyte]

/-! ### The loader and boot (R47, R48, R50, R119) -/

/-- Placing bytes past the end of memory stores none. -/
theorem placeBytes_of_ge {a : Nat} (h : memSize ≤ a) (m : Memory) (vs : List Byte) : placeBytes m a vs = m := by
  induction vs generalizing a with
  | nil => rfl
  | cons v vs ih => rw [placeBytes, if_neg (Nat.not_lt.2 h), ih (Nat.le_succ_of_le h)]

/-- What memory reads after bytes that fit are placed at `a`. -/
theorem Memory.read_placeBytes {a : Nat} {vs : List Byte} (h : a + vs.length ≤ memSize) (m : Memory) (b : Nat) :
    (placeBytes m a vs).read b = if b < a then m.read b else (vs[b - a]?).getD (m.read b) := by
  induction vs generalizing m a with
  | nil => simp [placeBytes]
  | cons v vs ih =>
    rw [List.length_cons] at h
    rw [placeBytes, if_pos (by omega), ih (by omega), Memory.read_write]
    obtain hlt | rfl | hgt := Nat.lt_trichotomy b a
    · rw [if_pos (by omega), if_pos hlt, if_neg (by omega)]
    · simp
    · obtain ⟨k, rfl⟩ := Nat.exists_eq_add_of_lt hgt
      have hk : a + k + 1 - a = k + 1 := by omega
      have hk' : a + k + 1 - (a + 1) = k := by omega
      rw [if_neg (by omega), if_neg (by omega), if_neg (by omega), hk, hk', List.getElem?_cons_succ]

/-- R47, R48: from Idle the loader places the bytes that fit in memory, and reports the first address past the end
exactly when there are more. -/
theorem loadFrom_of_idle {a : Nat} {s : State} (hs : s.status = .idle) (ha : a ≤ 256) (image : List Byte) :
    loadFrom a image s = ({ s with mem := placeBytes s.mem a image },
      if 256 < a + image.length then some (.outOfBounds 256) else none) := by
  induction image generalizing a s with
  | nil => rw [loadFrom, List.length_nil, Nat.add_zero, if_neg (Nat.not_lt.2 ha)]; rfl
  | cons v vs ih =>
    rw [loadFrom, hostLoad_of_idle hs]
    obtain hlt | rfl := Nat.lt_or_eq_of_le ha
    · have hlen : a + (vs.length + 1) = a + 1 + vs.length := by omega
      rw [if_pos (show a < memSize from hlt), placeBytes, if_pos (show a < memSize from hlt), List.length_cons, hlen]
      exact ih (s := { s with mem := s.mem.write a v }) hs hlt
    · rw [if_neg (Nat.lt_irrefl memSize), placeBytes_of_ge (Nat.le_refl memSize),
        if_pos (by rw [List.length_cons]; omega)]

/-- R47, R119: booting an image that fits. -/
theorem boot_of_length_le {s : State} (hs : s.status = .idle) {image : List Byte} (h : image.length ≤ 256) :
    boot image s = ({ s with mem := placeBytes s.mem 0 image, status := .running }, none) := by
  rw [boot, loadFrom_of_idle hs (Nat.zero_le _), if_neg (by omega)]
  simp only [hostRun_of_idle, hs]

/-- R48: booting an image that does not fit. -/
theorem boot_of_length_gt {s : State} (hs : s.status = .idle) {image : List Byte} (h : 256 < image.length) :
    boot image s = ({ s with mem := placeBytes s.mem 0 image }, some (.outOfBounds 256)) := by
  rw [boot, loadFrom_of_idle hs (Nat.zero_le _), if_pos (by omega)]

/-- R71: no step exists in Idle. -/
theorem step_of_idle {s : State} (hs : s.status = .idle) : step s = .fault .idle := by
  rw [step, stepBy, hs]

/-- Settles O54, by what booting an image that fits does and what the placed bytes read as. -/
theorem bootLoadsImage : Obligations.BootLoadsImage := by
  intro regInit memInit image hlen
  refine ⟨_, boot_of_length_le rfl hlen, fun a => ?_, rfl⟩
  have hfits : 0 + image.length ≤ memSize := by rwa [Nat.zero_add]
  exact (Memory.read_placeBytes hfits memInit a).trans (if_neg (Nat.not_lt_zero a))

/-- Settles O55: the loader's error is the boot's, and what it placed leaves the status Idle. -/
theorem longImageAborts : Obligations.LongImageAborts := by
  intro s image hs hlen
  exact ⟨_, boot_of_length_gt hs hlen, hs, step_of_idle hs⟩

/-! ### Image text (R49, R69) -/

/-- Text with no white space in it is its own token. -/
theorem trimBlanks_of_no_blank {w : List Char} (h : ∀ c ∈ w, isBlank c = false) : trimBlanks w = w := by
  have hdrop : ∀ l : List Char, (∀ c ∈ l, isBlank c = false) → l.dropWhile isBlank = l := fun l hl =>
    List.dropWhile_eq_self_iff.2 fun hpos => by simp [hl _ (List.getElem_mem hpos)]
  rw [trimBlanks, hdrop w h, hdrop _ fun c hc => h c (List.mem_reverse.1 hc), List.reverse_reverse]

theorem eq_one_or_zero_of_mem_binaryDigits {v : Byte} {c : Char} (h : c ∈ binaryDigits v) : c = '1' ∨ c = '0' := by
  obtain ⟨k, -, rfl⟩ := List.mem_map.1 h
  split
  · exact .inl rfl
  · exact .inr rfl

/-- R69: a byte's digits hold no comment mark and no white space. -/
theorem ne_hash_and_not_blank_of_mem_binaryDigits {v : Byte} {c : Char} (h : c ∈ binaryDigits v) :
    c ≠ '#' ∧ isBlank c = false := by
  obtain rfl | rfl := eq_one_or_zero_of_mem_binaryDigits h <;> decide

theorem length_binaryDigits (v : Byte) : (binaryDigits v).length = 8 := by
  rw [binaryDigits, List.length_map, List.length_range]

theorem binaryDigits_ne_nil (v : Byte) : binaryDigits v ≠ [] :=
  List.ne_nil_of_length_pos (by rw [length_binaryDigits]; decide)

theorem digitValue_two_bit (b : Bool) : digitValue 2 (if b then '1' else '0') = some b.toNat := by
  cases b <;> decide

/-- Bit `n` is what one more right shift drops. -/
theorem shiftRight_succ_mul_two_add_testBit (x n : Nat) : (x >>> (n + 1)) * 2 + (x.testBit n).toNat = x >>> n := by
  rw [Nat.testBit_eq_decide_div_mod_eq, Nat.shiftRight_succ, Nat.shiftRight_eq_div_pow]
  obtain h | h := Nat.mod_two_eq_zero_or_one (x / 2 ^ n)
  all_goals
    simp only [h, decide_true, decide_false, Bool.toNat_true, Bool.toNat_false, Nat.zero_ne_one]
    omega

/-- The low `n` bits of a number, written after the number that its other bits are, most significant first, write
that number. -/
theorem digitsValue_two_bits (x n : Nat) :
    digitsValue 2 (x >>> n) ((List.range n).map fun k => if x.testBit (n - 1 - k) then '1' else '0') = some x := by
  induction n with
  | zero => rfl
  | succ n ih =>
    rw [List.range_succ_eq_map, List.map_cons, List.map_map, digitsValue, digitValue_two_bit]
    have hk : ∀ k, n - 1 - k = n - (k + 1) := by omega
    simpa [Function.comp_def, hk, shiftRight_succ_mul_two_add_testBit] using ih

theorem numberValue_binaryDigits (v : Byte) : numberValue 2 (binaryDigits v) = some v.toNat := by
  have hhigh : v.toNat >>> 8 = 0 := Nat.shiftRight_eq_zero _ _ v.isLt
  rw [numberValue, if_neg (binaryDigits_ne_nil v), ← hhigh]
  exact digitsValue_two_bits v.toNat 8

/-- R49, R69: the line of a byte parses to the byte. -/
theorem parseImageLine_binaryDigits (v : Byte) : parseImageLine (binaryDigits v) = .ok (some v) := by
  have htoken : trimBlanks ((binaryDigits v).takeWhile (· ≠ '#')) = binaryDigits v := by
    rw [List.takeWhile_eq_self_iff.2 fun c hc => by simp [(ne_hash_and_not_blank_of_mem_binaryDigits hc).1]]
    exact trimBlanks_of_no_blank fun c hc => (ne_hash_and_not_blank_of_mem_binaryDigits hc).2
  simp only [parseImageLine, htoken, if_neg (binaryDigits_ne_nil v), length_binaryDigits, Nat.lt_irrefl, if_false,
    numberValue_binaryDigits, BitVec.ofNat_toNat, BitVec.setWidth_eq]

theorem parseImageLines_map_binaryDigits (vs : List Byte) : parseImageLines (vs.map binaryDigits) = .ok vs := by
  induction vs with
  | nil => rfl
  | cons v vs ih =>
    rw [List.map_cons, parseImageLines, parseImageLine_binaryDigits, ih]
    rfl

/-- Settles O56: the lines of the instructions are the lines of their bytes. -/
theorem imageTextParses : Obligations.ImageTextParses := by
  intro opc is
  have hlines : is.flatMap (imageLines opc) = (is.flatMap (encode opc)).map binaryDigits :=
    List.map_flatMap.symm
  rw [hlines, parseImageLines_map_binaryDigits]

end Sys2Proof.Machine

/-! PROOFS. The decoder and the encoder undo each other (R53, R61, R65), and a byte in no row of the table (R60, R73). -/

namespace Sys2Proof

/-! ### The decoder and the encoder as inverses (R53, R61, R65) -/

/-- R53: the decoder reads an instruction from a list of bytes exactly when the list begins with its encoding. -/
theorem decodeFrom_getElem?_eq_ok {opc : Opc} {bytes : List Byte} {i : Instr} :
    decodeFrom opc (fun k => bytes[k]?) = .ok i ↔ encode opc i <+: bytes := by
  rw [List.prefix_iff_getElem?]
  constructor
  · intro h k hk
    obtain ⟨hop, hargs⟩ := decodeFrom_ok h
    cases k with
    | zero => exact hop
    | succ k => exact hargs k _ (List.getElem?_eq_getElem (Nat.lt_of_succ_lt_succ hk))
  · intro h
    refine decodeFrom_of_read (h 0 (Nat.succ_pos _)) fun k v hv => ?_
    obtain ⟨hk, rfl⟩ := List.getElem?_eq_some_iff.1 hv
    exact h (k + 1) (Nat.succ_lt_succ hk)

/-- R53, R65: the decoder answers an instruction and a rest exactly for the encoding followed by the rest. -/
theorem decode_eq_ok {opc : Opc} {bytes rest : List Byte} {i : Instr} :
    decode opc bytes = .ok (i, rest) ↔ bytes = encode opc i ++ rest := by
  rw [decode_ok, decodeFrom_getElem?_eq_ok, i.length_eq]
  constructor
  · rintro ⟨hprefix, rfl⟩
    exact (List.prefix_iff_eq_append.1 hprefix).symm
  · rintro rfl
    exact ⟨List.prefix_append .., List.drop_left.symm⟩

/-- Settles O1: one direction of `decode_eq_ok`. -/
theorem decodeOfEncode : Obligations.DecodeOfEncode :=
  fun _ _ _ => decode_eq_ok.2 rfl

/-- Settles O2: the other direction of `decode_eq_ok`. -/
theorem encodeOfDecode : Obligations.EncodeOfDecode :=
  fun _ _ _ _ => decode_eq_ok.1

/-- Settles O3: each word is written as the encoding of its instruction, under the default table. -/
theorem specWordsDecode : Obligations.SpecWordsDecode :=
  have decodes (i : Instr) : decode defaultOpc (encode defaultOpc i) = .ok (i, []) :=
    decode_eq_ok.2 (List.append_nil _).symm
  ⟨decodes (.load 3 255), decodes (.print 5), decodes .halt, decodes (.add 0 1), decodes (.multiply 2 4),
    decodes (.push 7), decodes (.pop 8), decodes (.call 1), decodes .ret⟩

/-! ### The bytes in no row of the table (R60) -/

/-- The nine opcode bytes as numbers. -/
def Opc.legalBytes (opc : Opc) : List Nat := Role.all.map fun r => (opc.byte r).toNat

theorem Opc.nodup_legalBytes (opc : Opc) : opc.legalBytes.Nodup :=
  List.Nodup.map (fun _ _ h => opc.byte_injective (BitVec.eq_of_toNat_eq h)) (by decide)

/-- The test that a number is no role's byte, as the statement writes it. -/
theorem Opc.all_ne_iff_not_mem_legalBytes (opc : Opc) {n : Nat} (hn : n < 256) :
    (Role.all.all fun r => decide (opc.byte r ≠ BitVec.ofNat 8 n)) = true ↔ n ∉ opc.legalBytes := by
  simp only [Opc.legalBytes, List.all_eq_true, decide_eq_true_eq, List.mem_map, not_exists, not_and]
  refine forall₂_congr fun r _ => not_congr ?_
  rw [← BitVec.toNat_inj, BitVec.toNat_ofNat, Nat.mod_eq_of_lt hn]

theorem Opc.legalBytes_subset (opc : Opc) : opc.legalBytes ⊆ List.range 256 := by
  intro n hn
  obtain ⟨r, -, rfl⟩ := List.mem_map.1 hn
  exact List.mem_range.2 (opc.byte r).isLt

/-- R58, R60: as the nine bytes are distinct, every accepted table leaves 247 bytes unused. -/
theorem Opc.length_illegal (opc : Opc) :
    ((List.range 256).filter fun n =>
      Role.all.all fun r => decide (opc.byte r ≠ BitVec.ofNat 8 n)).length = 247 := by
  have hfilter : ((List.range 256).filter fun n => Role.all.all fun r => decide (opc.byte r ≠ BitVec.ofNat 8 n)) =
      (List.range 256).diff opc.legalBytes := by
    rw [List.nodup_range.sdiff_eq_filter]
    refine List.filter_congr fun n hn => Bool.eq_iff_iff.2 ?_
    rw [decide_eq_true_iff]
    exact opc.all_ne_iff_not_mem_legalBytes (List.mem_range.1 hn)
  have hsub := opc.nodup_legalBytes.subperm opc.legalBytes_subset
  rw [hfilter, ← List.countP_true, List.countP_diff hsub, List.countP_true, List.length_range]
  rfl

end Sys2Proof

namespace Sys2Proof.Machine

/-- R60, R73: the fetch of a byte in no row stops before any operand is read. -/
theorem fetch_of_illegal {opc : Opc} {s : State} (hpc : s.pc ≤ 255) (h : ∀ r, opc.byte r ≠ s.mem.read s.pc) :
    fetch opc s = .error (.unknownOpcode (s.mem.read s.pc)) := by
  rw [fetch_eq, if_neg (Nat.not_lt.2 hpc), Opc.role?_eq_none.2 h]

/-- Settles O5: the failed fetch is the fault, and the unused bytes are counted for every accepted table. -/
theorem illegalOpcodeFaults : Obligations.IllegalOpcodeFaults := by
  refine ⟨?_, defaultOpc.length_illegal⟩
  rintro opc s _ hs hpc rfl h
  rw [stepWith, stepBy_running hs, fetch_of_illegal hpc h]
  rfl

end Sys2Proof.Machine

/-! PROOFS. The text of an instruction is read back as that instruction (R66, R67). -/

namespace Sys2Proof.Machine

/-! ### White space and commas (R66) -/

/-- Text that `trimBlanks` leaves as it is: it is not empty, and white space is at neither end. -/
structure Solid (w : List Char) : Prop where
  ne_nil : w ≠ []
  head : ∀ c ∈ w.head?, isBlank c = false
  last : ∀ c ∈ w.getLast?, isBlank c = false

theorem Solid.of_no_blank {w : List Char} (hw : w ≠ []) (h : ∀ c ∈ w, isBlank c = false) : Solid w :=
  ⟨hw, fun c hc => h c (List.mem_of_mem_head? hc), fun c hc => h c (List.mem_of_mem_getLast? hc)⟩

/-- Solid text, any text, solid text: the ends are those of the outer two. -/
theorem Solid.append {u v : List Char} (hu : Solid u) (m : List Char) (hv : Solid v) : Solid (u ++ (m ++ v)) where
  ne_nil := by simp [hu.ne_nil]
  head c hc := hu.head c (by rwa [List.head?_append_of_ne_nil _ hu.ne_nil] at hc)
  last c hc := hv.last c (by
    rwa [← List.append_assoc, List.getLast?_append_of_ne_nil _ hv.ne_nil] at hc)

theorem dropWhile_isBlank_of_head {w : List Char} (h : ∀ c ∈ w.head?, isBlank c = false) :
    w.dropWhile isBlank = w := by
  cases w with
  | nil => rfl
  | cons c w => exact List.dropWhile_cons_of_neg (by simp [h c rfl])

theorem Solid.trimBlanks_eq {w : List Char} (h : Solid w) : trimBlanks w = w := by
  rw [trimBlanks, dropWhile_isBlank_of_head h.head,
    dropWhile_isBlank_of_head (fun c hc => h.last c (by rwa [List.head?_reverse] at hc)), List.reverse_reverse]

theorem trimBlanks_cons_space (w : List Char) : trimBlanks (' ' :: w) = trimBlanks w := rfl

theorem splitAtChar_of_not_mem {c : Char} {w : List Char} (h : c ∉ w) : splitAtChar c w = [w] := by
  induction w with
  | nil => rfl
  | cons d w ih =>
    obtain ⟨hd, hw⟩ := not_or.1 (mt List.mem_cons.2 h)
    rw [splitAtChar, if_neg (Ne.symm hd), ih hw]

theorem splitAtChar_append_cons {c : Char} {w : List Char} (h : c ∉ w) (rest : List Char) :
    splitAtChar c (w ++ c :: rest) = w :: splitAtChar c rest := by
  induction w with
  | nil => rw [List.nil_append, splitAtChar, if_pos rfl]
  | cons d w ih =>
    obtain ⟨hd, hw⟩ := not_or.1 (mt List.mem_cons.2 h)
    rw [List.cons_append, splitAtChar, if_neg (Ne.symm hd), ih hw]

/-! ### The operands' texts -/

/-- An operand's text: not empty, and with no white space and no comma in it. -/
structure IsOperandText (w : List Char) : Prop where
  ne_nil : w ≠ []
  not_blank : ∀ c ∈ w, isBlank c = false
  no_comma : ',' ∉ w

theorem IsOperandText.solid {w : List Char} (h : IsOperandText w) : Solid w :=
  .of_no_blank h.ne_nil h.not_blank

/-- R66: the operands in one text, with a comma and a space before each but the first. -/
def joinOperands (w : List Char) (ws : List (List Char)) : List Char := w ++ ws.flatMap fun v => ',' :: ' ' :: v

theorem solid_joinOperands {w : List Char} {ws : List (List Char)} (h : ∀ v ∈ w :: ws, IsOperandText v) :
    Solid (joinOperands w ws) := by
  induction ws generalizing w with
  | nil =>
    rw [joinOperands, List.flatMap_nil, List.append_nil]
    exact (h w List.mem_cons_self).solid
  | cons v vs ih =>
    obtain ⟨hw, hvs⟩ := List.forall_mem_cons.1 h
    exact hw.solid.append [',', ' '] (ih hvs)

/-- Splitting at the commas leaves the space that follows each. -/
theorem splitAtChar_joinOperands {w : List Char} {ws : List (List Char)} (h : ∀ v ∈ w :: ws, ',' ∉ v) :
    splitAtChar ',' (joinOperands w ws) = w :: ws.map (' ' :: ·) := by
  induction ws generalizing w with
  | nil => simpa [joinOperands] using splitAtChar_of_not_mem (h w List.mem_cons_self)
  | cons v vs ih =>
    obtain ⟨hw, hv, hvs⟩ : ',' ∉ w ∧ ',' ∉ v ∧ ∀ u ∈ vs, ',' ∉ u := by simpa using h
    have hrest : splitAtChar ',' (joinOperands (' ' :: v) vs) = (' ' :: v) :: vs.map (' ' :: ·) :=
      ih (by simpa using ⟨hv, hvs⟩)
    rw [List.map_cons, ← hrest]
    exact splitAtChar_append_cons hw _

/-- R66: the operands are read back from their text. -/
theorem splitOperands_joinOperands {w : List Char} {ws : List (List Char)} (h : ∀ v ∈ w :: ws, IsOperandText v) :
    splitOperands (joinOperands w ws) = w :: ws := by
  have htrim : ∀ v ∈ w :: ws, trimBlanks v = v := fun v hv => trimBlanks_of_no_blank (h v hv).not_blank
  obtain ⟨hw, hws⟩ := List.forall_mem_cons.1 htrim
  rw [splitOperands, if_neg (solid_joinOperands h).ne_nil, splitAtChar_joinOperands fun v hv => (h v hv).no_comma,
    List.map_cons, List.map_map, hw, List.map_congr_left (f := trimBlanks ∘ (' ' :: ·)) (g := id) hws, List.map_id]

/-! ### A role's name and what follows it -/

theorem roleNamed?_mnemonic (r : Role) : roleNamed? (Role.mnemonic r) = some r := by
  cases r <;> rfl

/-- R66: no white space ends a mnemonic early; the form in which `parseInstr` tests it. -/
theorem not_isBlank_of_mem_mnemonic {r : Role} : ∀ c ∈ Role.mnemonic r, (!isBlank c) = true :=
  List.all_eq_true.1 (by cases r <;> rfl)

theorem mnemonic_ne_nil (r : Role) : Role.mnemonic r ≠ [] := by
  cases r <;> decide

/-- What stands after the role's name: nothing, or a space and the operands. -/
def operandTail : List (List Char) → List Char
  | [] => []
  | w :: ws => ' ' :: joinOperands w ws

theorem solid_mnemonic_append_operandTail (r : Role) {ws : List (List Char)} (h : ∀ v ∈ ws, IsOperandText v) :
    Solid (Role.mnemonic r ++ operandTail ws) := by
  have hr : Solid (Role.mnemonic r) := 
    .of_no_blank (mnemonic_ne_nil r) fun c hc => Bool.not_eq_true' _ ▸ not_isBlank_of_mem_mnemonic c hc
  cases ws with
  | nil => simpa [operandTail] using hr
  | cons w ws => exact hr.append [' '] (solid_joinOperands h)

theorem splitOperands_operandTail {ws : List (List Char)} (h : ∀ v ∈ ws, IsOperandText v) :
    splitOperands (trimBlanks (operandTail ws)) = ws := by
  cases ws with
  | nil => rfl
  | cons w ws =>
    rw [operandTail, trimBlanks_cons_space, (solid_joinOperands h).trimBlanks_eq, splitOperands_joinOperands h]

/-- The role's name ends where the tail begins. -/
theorem takeWhile_operandTail (ws : List (List Char)) : (operandTail ws).takeWhile (fun c => !isBlank c) = [] := by
  cases ws <;> rfl

theorem dropWhile_operandTail (ws : List (List Char)) :
    (operandTail ws).dropWhile (fun c => !isBlank c) = operandTail ws := by
  cases ws <;> rfl

/-- R66: a role's name with operands after it is read as that role and those operands. -/
theorem parseInstr_mnemonic_append_operandTail (r : Role) {ws : List (List Char)} (h : ∀ v ∈ ws, IsOperandText v) :
    parseInstr (Role.mnemonic r ++ operandTail ws) = assembleOperands r ws := by
  simp only [parseInstr, (solid_mnemonic_append_operandTail r h).trimBlanks_eq,
    List.takeWhile_append_of_pos not_isBlank_of_mem_mnemonic,
    List.dropWhile_append_of_pos not_isBlank_of_mem_mnemonic, takeWhile_operandTail, dropWhile_operandTail,
    List.append_nil, roleNamed?_mnemonic, splitOperands_operandTail h]

/-! ### Registers and immediates (R66, R67) -/

theorem digitChar_mod (d : Nat) : digitChar (d % 10) = digitChar d := by
  rw [digitChar, digitChar, Nat.mod_mod]

/-- A fact about the ten digits is one about every `digitChar`. -/
theorem digitChar_forall {P : Nat → Char → Prop} (h : ∀ k < 10, P k (digitChar k)) (d : Nat) :
    P (d % 10) (digitChar d) := by
  rw [← digitChar_mod]
  exact h _ (Nat.mod_lt _ (by decide))

theorem isBlank_digitChar (d : Nat) : isBlank (digitChar d) = false :=
  digitChar_forall (P := fun _ c => isBlank c = false) (by decide) d

/-- A digit is neither the comma between operands nor the mark of a base. -/
theorem digitChar_not_mark (d : Nat) : digitChar d ∉ [',', 'x', 'b'] :=
  digitChar_forall (P := fun _ c => c ∉ [',', 'x', 'b']) (by decide) d

theorem digitValue_digitChar (d : Nat) : digitValue 10 (digitChar d) = some (d % 10) :=
  digitChar_forall (P := fun k c => digitValue 10 c = some k) (by decide) d

theorem digitValue_eight_digitChar : ∀ d < 8, digitValue 8 (digitChar d) = some d := by decide

theorem isOperandText_registerText (a : Byte) : IsOperandText (registerText a) where
  ne_nil := List.cons_ne_nil _ _
  not_blank := List.forall_mem_cons.2 ⟨by decide, List.forall_mem_singleton.2 (isBlank_digitChar _)⟩
  no_comma h := by
    obtain h | h := List.mem_cons.1 h
    · exact absurd h (by decide)
    · exact digitChar_not_mark a.toNat (List.mem_singleton.1 h ▸ List.mem_cons_self)

/-- R34: a byte in decimal is a run of one to three digits. -/
theorem exists_decimalDigits_eq_map (v : Byte) : ∃ d ds, decimalDigits v = (d :: ds).map digitChar := by
  simp only [decimalDigits]
  split_ifs
  · exact ⟨_, [], rfl⟩
  · exact ⟨_, [_], rfl⟩
  · exact ⟨_, [_, _], rfl⟩

theorem decimalDigits_ne_nil (v : Byte) : decimalDigits v ≠ [] := by
  obtain ⟨d, ds, h⟩ := exists_decimalDigits_eq_map v
  exact h ▸ List.cons_ne_nil _ _

theorem exists_digitChar_of_mem_decimalDigits {v : Byte} {c : Char} (hc : c ∈ decimalDigits v) :
    ∃ d, digitChar d = c := by
  obtain ⟨d, ds, h⟩ := exists_decimalDigits_eq_map v
  obtain ⟨k, -, hk⟩ := List.mem_map.1 (h ▸ hc)
  exact ⟨k, hk⟩

theorem mark_not_mem_decimalDigits {c : Char} (hc : c ∈ [',', 'x', 'b']) (v : Byte) : c ∉ decimalDigits v := by
  intro hv
  obtain ⟨d, rfl⟩ := exists_digitChar_of_mem_decimalDigits hv
  exact digitChar_not_mark d hc

theorem isOperandText_decimalDigits (v : Byte) : IsOperandText (decimalDigits v) where
  ne_nil := decimalDigits_ne_nil v
  not_blank c hc := by
    obtain ⟨d, rfl⟩ := exists_digitChar_of_mem_decimalDigits hc
    exact isBlank_digitChar d
  no_comma := mark_not_mem_decimalDigits (by decide) v

/-- R66: in each of the three lengths, the digits write the byte. -/
theorem numberValue_decimalDigits (v : Byte) : numberValue 10 (decimalDigits v) = some v.toNat := by
  have := v.isLt
  rw [numberValue, if_neg (decimalDigits_ne_nil v)]
  simp only [decimalDigits]
  split_ifs
  all_goals
    simp only [digitsValue, digitValue_digitChar, Option.bind_eq_bind, Option.bind_some, Option.some.injEq]
    omega

/-- R66: a number with neither base's mark in it is decimal. -/
theorem immediateNumber_of_not_mem {w : List Char} (hx : 'x' ∉ w) (hb : 'b' ∉ w) :
    immediateNumber w = numberValue 10 w := by
  unfold immediateNumber
  split
  · simp at hx
  · simp at hb
  · rfl

theorem parseImmediate_decimalDigits (v : Byte) : parseImmediate (decimalDigits v) = .ok v := by
  have hv : v.toNat ≤ 255 := Nat.le_of_lt_succ v.isLt
  have hx : 'x' ∉ decimalDigits v := mark_not_mem_decimalDigits (by decide) v
  have hb : 'b' ∉ decimalDigits v := mark_not_mem_decimalDigits (by decide) v
  rw [parseImmediate, immediateNumber_of_not_mem hx hb, numberValue_decimalDigits]
  simp only [if_pos hv, BitVec.ofNat_toNat, BitVec.setWidth_eq]

theorem parseRegister_registerText {a : Byte} (h : namesRegister a = true) :
    parseRegister (registerText a) = .ok a := by
  have ha : a.toNat < 8 := of_decide_eq_true h
  simp only [registerText, parseRegister, digitValue_eight_digitChar _ ha, BitVec.ofNat_toNat, BitVec.setWidth_eq]

/-! ### The texts of the nine instructions -/

/-- R66: the texts of an instruction's operands, in order. -/
def operandTexts : Instr → List (List Char)
  | .load a imm => [registerText a, decimalDigits imm]
  | .add a b | .multiply a b => [registerText a, registerText b]
  | .print a | .push a | .pop a | .call a => [registerText a]
  | .halt | .ret => []

/-- R66: the text of an instruction is its role's name and its operands' texts. -/
theorem instrText_eq (i : Instr) : instrText i = Role.mnemonic i.role ++ operandTail (operandTexts i) := by
  cases i with
  | load a imm =>
    rw [operandTexts, operandTail, joinOperands, List.flatMap_singleton]
    rfl
  | print | halt | add | multiply | push | pop | call | ret => rfl

theorem isOperandText_of_mem_operandTexts (i : Instr) : ∀ w ∈ operandTexts i, IsOperandText w := by
  cases i <;> simp [operandTexts, isOperandText_registerText, isOperandText_decimalDigits]

/-- R67: an instruction the text can write is assembled from its operands' texts. -/
theorem assembleOperands_operandTexts {i : Instr} (h : i.wellFormed = true) :
    assembleOperands i.role (operandTexts i) = .ok i := by
  cases i with
  | load a imm =>
    simp only [Instr.role, operandTexts, assembleOperands, parseRegister_registerText h, parseImmediate_decimalDigits]
    rfl
  | add a b | multiply a b =>
    obtain ⟨ha, hb⟩ := Bool.and_eq_true_iff.1 h
    simp only [Instr.role, operandTexts, assembleOperands, parseRegister_registerText ha, parseRegister_registerText hb]
    rfl
  | print a | push a | pop a | call a =>
    simp only [Instr.role, operandTexts, assembleOperands, parseRegister_registerText h]
    rfl
  | halt | ret => rfl

/-- Settles O57: the text is the role's name and the operands' texts, which are read back and assembled. -/
theorem assemblyTextParses : Obligations.AssemblyTextParses := by
  intro i h
  rw [instrText_eq, parseInstr_mnemonic_append_operandTail _ (isOperandText_of_mem_operandTexts i),
    assembleOperands_operandTexts h]

end Sys2Proof.Machine

/-! PROOFS. The engine (spec/40_engine.md): when a step exists and the order of its fetches and checks, the pc it
leaves, the end at Halt, and a run under fuel. -/

namespace Sys2Proof

/-- R55, R58: the byte of an instruction that is found holds that role's operand count. -/
theorem Opc.count_of_role? {opc : Opc} {op : Byte} {r : Role} (h : opc.role? op = some r) :
    op.toNat / 64 = r.operandCount := by
  rw [← opcodeCount_eq_div, ← Opc.byte_of_role? h, opc.opcodeCount_byte]

end Sys2Proof

namespace Sys2Proof.Machine

/-! ### When a step exists, and what it runs (R71 to R79) -/

/-- Settles O7: the fetch is the decoder on the bytes from the pc up. -/
theorem stepRunsDecoded : Obligations.StepRunsDecoded := by
  intro s i rest hs h
  rw [step_eq_stepWith, stepWith_of_fetch hs (fetch_of_decode h), exec_eq_execWith]

theorem State.runningFlag_iff (s : State) : s.runningFlag = true ↔ s.status = .running :=
  decide_eq_true_iff

/-- Settles O8: a next state comes from Running alone, and every instruction and every failed fetch answers one. -/
theorem stepExactlyWhenRunning : Obligations.StepExactlyWhenRunning := by
  intro s
  refine ⟨⟨fun ⟨_, h⟩ => running_of_step h, fun hs => ?_⟩, s.runningFlag_iff⟩
  rw [step_eq_stepWith]
  exact stepWith_total defaultOpc hs

/-- Settles O6, by the checks of `fetch_eq` in their order; the count in the opcode's bits is the role's. -/
theorem stepFetchOrder : Obligations.StepFetchOrder := by
  intro opc s hs
  rw [stepWith, stepBy_running hs, fetch_eq]
  by_cases hpc : 255 < s.pc
  · rw [if_pos hpc, if_pos hpc]; rfl
  rw [if_neg hpc, if_neg hpc]
  cases hr : opc.role? (s.mem.read s.pc) with
  | none => rfl
  | some r =>
    simp only [Opc.count_of_role? hr]
    by_cases h1 : 1 ≤ r.operandCount ∧ 255 < s.pc + 1
    · rw [if_pos h1, if_pos h1]; rfl
    rw [if_neg h1, if_neg h1]
    by_cases h2 : 2 ≤ r.operandCount ∧ 255 < s.pc + 2
    · rw [if_pos h2, if_pos h2]; rfl
    · rw [if_neg h2, if_neg h2]

/-! ### The pc after an instruction (R77, R83) -/

/-- R77: an instruction that completes and does not set the pc itself moves it past its last byte. -/
theorem pc_of_handle_ok {i : Instr} {s u : State} (h : handle i s = .ok u) (hp : i.role.setsPc = false) :
    (haltIf i.role (advancePc i.role u)).pc = s.pc + i.role.operandCount + 1 := by
  rw [haltIf_pc, advancePc_pc, hp, handle_pc h hp]
  rfl

/-- R78, R80: an instruction that completes in Running does not leave the machine Faulted. -/
theorem not_faulted_of_handle_ok {i : Instr} {s u : State} (h : handle i s = .ok u) (hs : s.status = .running) :
    (haltIf i.role (advancePc i.role u)).status.isFaulted = false := by
  rw [haltIf_status, advancePc_status, handle_status h, hs]
  split <;> rfl

/-- Settles O12: fault entry keeps the pc; of the handlers that complete only Call's and Return's write it. -/
theorem pcMux : Obligations.PcMux := by
  intro i s t hs h
  rw [exec_eq_execWith] at h
  obtain ⟨u, hu, rfl⟩ | ⟨ra, -, rfl⟩ := conclude_next h
  · refine ⟨fun hfault => (nomatch (not_faulted_of_handle_ok hu hs).symm.trans hfault), fun _ => ?_⟩
    cases i with
    | halt | print | push | pop | load | add | multiply => exact pc_of_handle_ok hu rfl
    | call a =>
      obtain ⟨ha, -, -, rfl⟩ := handleCall_ok hu
      exact ⟨ha, rfl⟩
    | ret =>
      obtain ⟨-, rfl⟩ := handleReturn_ok hu
      rfl
  · exact ⟨fun _ => rfl, fun hfault => nomatch hfault⟩

/-! ### Halted and Faulted (R78, R81) -/

/-- R71: no step exists in Halted. -/
theorem step_of_halted {s : State} (hs : s.status = .halted) : step s = .fault .halted := by
  rw [step, stepBy, hs]

/-- Settles O13, by the whole step at Halt's byte and by the status a step can leave. -/
theorem haltedOnlyByHalt : Obligations.HaltedOnlyByHalt := by
  refine ⟨fun s hs hpc hop => ?_, fun s t h ht => ?_⟩
  · exact ⟨_, (step_eq_stepWith s).trans (stepWith_halt hs hpc hop), rfl, rfl, step_of_halted rfl⟩
  · rw [step_eq_stepWith] at h
    obtain hsame | hfault | ⟨-, hdecode⟩ := stepWith_status h
    · exact nomatch ht.symm.trans (hsame.trans (running_of_stepWith h))
    · exact nomatch (congrArg Status.isFaulted ht).symm.trans hfault
    · exact hdecode

/-- Settles O44: an event that changes the machine begins in Idle or, a step, in Running. -/
theorem terminalStatusesAbsorb : Obligations.TerminalStatusesAbsorb := by
  intro opc s ev hterm
  obtain hsame | ⟨-, -, -, hidle, -, -⟩ | ⟨-, hidle, -⟩ | ⟨-, hstep⟩ := State.afterWith_cases opc s ev
  · exact hsame
  · exact absurd (hidle ▸ hterm) Status.isTerminal_idle
  · exact absurd (hidle ▸ hterm) Status.isTerminal_idle
  · exact absurd (running_of_stepWith hstep ▸ hterm) Status.isTerminal_running

/-! ### A run under fuel (R81, R82) -/

theorem stepsTo_zero {opc : Opc} {s t : State} : StepsTo opc 0 s t ↔ s = t :=
  ⟨fun h => by cases h; rfl, fun h => h ▸ .refl s⟩

/-- R25: no step leads back to Idle. -/
theorem not_idle_of_stepWith {opc : Opc} {s t : State} (h : stepWith opc s = .next t) : t.status ≠ .idle := by
  intro ht
  obtain hsame | hfault | ⟨hhalt, -⟩ := stepWith_status h
  · exact nomatch ht.symm.trans (hsame.trans (running_of_stepWith h))
  · exact nomatch (congrArg Status.isFaulted ht).symm.trans hfault
  · exact nomatch ht.symm.trans hhalt

/-- R33, R71: a run has not started exactly when it begins in Idle. -/
theorem runForWith_eq_notStarted {opc : Opc} {n : Nat} {s : State} :
    runForWith opc n s = .notStarted ↔ s.status = .idle := by
  induction n generalizing s with
  | zero => exact State.verdict_eq_notStarted
  | succ n ih =>
    by_cases hs : s.status = .running
    · obtain ⟨t, ht⟩ := stepWith_total opc hs
      rw [runForWith_next ht, ih]
      exact iff_of_false (not_idle_of_stepWith ht) (by simp [hs])
    · rw [runForWith_of_not_running hs, State.verdict_eq_notStarted]

/-- R81: a run ends in the Halted or Faulted state that some of its steps lead to. -/
theorem runForWith_eq_ended {opc : Opc} {n : Nat} {s t : State} :
    runForWith opc n s = .ended t ↔ ∃ k ≤ n, StepsTo opc k s t ∧ t.status.isTerminal := by
  induction n generalizing s with
  | zero =>
    simp only [Nat.le_zero, exists_eq_left, stepsTo_zero]
    exact State.verdict_eq_ended
  | succ n ih =>
    by_cases hs : s.status = .running
    · obtain ⟨s', hs'⟩ := stepWith_total opc hs
      rw [runForWith_next hs', ih]
      constructor
      · rintro ⟨k, hk, hsteps, hterm⟩
        exact ⟨k + 1, Nat.succ_le_succ hk, .next hs' hsteps, hterm⟩
      · rintro ⟨k, hk, hsteps, hterm⟩
        cases k with
        | zero =>
          obtain rfl := stepsTo_zero.1 hsteps
          exact absurd (hs ▸ hterm) Status.isTerminal_running
        | succ k => exact ⟨k, Nat.le_of_succ_le_succ hk, (stepsTo_succ hs').1 hsteps, hterm⟩
    · rw [runForWith_of_not_running hs, State.verdict_eq_ended]
      simp only [stepsTo_of_not_running hs]
      constructor
      · rintro ⟨rfl, hterm⟩
        exact ⟨0, Nat.zero_le _, ⟨rfl, rfl⟩, hterm⟩
      · rintro ⟨-, -, ⟨-, rfl⟩, hterm⟩
        exact ⟨rfl, hterm⟩

/-- R82: a run is out of fuel in the Running state that as many steps as its fuel lead to. -/
theorem runForWith_eq_outOfFuel {opc : Opc} {n : Nat} {s t : State} :
    runForWith opc n s = .outOfFuel t ↔ StepsTo opc n s t ∧ t.status = .running := by
  induction n generalizing s with
  | zero => rw [stepsTo_zero]; exact State.verdict_eq_outOfFuel
  | succ n ih =>
    by_cases hs : s.status = .running
    · obtain ⟨s', hs'⟩ := stepWith_total opc hs
      rw [runForWith_next hs', ih, stepsTo_succ hs']
    · rw [runForWith_of_not_running hs, State.verdict_eq_outOfFuel, stepsTo_of_not_running hs]
      refine iff_of_false ?_ fun h => absurd h.1.1 (Nat.succ_ne_zero n)
      rintro ⟨rfl, hrunning⟩
      exact hs hrunning

/-- R81: a run that has ended ends the same with more fuel. -/
theorem runForWith_add_of_ended {opc : Opc} {n : Nat} {s t : State} (h : runForWith opc n s = .ended t) (k : Nat) :
    runForWith opc (n + k) s = .ended t := by
  obtain ⟨j, hj, hsteps⟩ := runForWith_eq_ended.1 h
  exact runForWith_eq_ended.2 ⟨j, Nat.le_add_right_of_le hj, hsteps⟩

/-- Settles O45: the three ways a run can be are `runForWith_eq_notStarted`, `runForWith_eq_ended` and
`runForWith_eq_outOfFuel`; the result is read off them. -/
theorem runEndsHaltedOrFaulted : Obligations.RunEndsHaltedOrFaulted :=
  ⟨fun _ _ _ => ⟨runForWith_eq_notStarted, fun _ => runForWith_eq_ended, fun _ => runForWith_eq_outOfFuel,
    fun _ h => ⟨congrArg RunResult.result h, runForWith_add_of_ended h⟩, fun _ h => congrArg RunResult.result h⟩,
    fun _ _ => rfl⟩

end Sys2Proof.Machine

/-! PROOFS. Load, Print and Halt (spec/41_load_print_halt.md): what each does in every state, and the whole step at
its opcode byte. -/

namespace Sys2Proof.Machine

/-! ### The step at an opcode byte (R72 to R74) -/

/-- R73, R74: at the opcode byte of a role the step is that role's instruction, unless its operand bytes run past the
end of memory. Whichever of them cannot be fetched, its address is 256. -/
theorem stepWith_of_read_eq_byte {opc : Opc} {s : State} {r : Role} (hs : s.status = .running) (hpc : s.pc ≤ 255)
    (hop : s.mem.read s.pc = opc.byte r) :
    stepWith opc s =
      if 255 < s.pc + r.operandCount then .next (s.faultedBy .outOfBounds (some (opc.byte r)) 256)
      else execWith opc (Instr.ofRole r (s.mem.read (s.pc + 1)) (s.mem.read (s.pc + 2))) s := by
  have hle := r.operandCount_le
  rw [stepFetchOrder opc s hs, if_neg (by omega)]
  simp only [hop, opc.role?_byte, Opc.count_of_role? (opc.role?_byte r)]
  by_cases h1 : 1 ≤ r.operandCount ∧ 255 < s.pc + 1
  · have haddr : s.pc + 1 = 256 := by omega
    rw [if_pos h1, if_pos (by omega), haddr]
  rw [if_neg h1]
  by_cases h2 : 2 ≤ r.operandCount ∧ 255 < s.pc + 2
  · have haddr : s.pc + 2 = 256 := by omega
    rw [if_pos h2, if_pos (by omega), haddr]
  · rw [if_neg h2, if_neg (by omega)]

/-! ### What Load and Print do, the register operand unchecked (R62, R85, R86) -/

/-- R76 to R80: an instruction whose handler makes one check completes when it passes, and faults otherwise. -/
theorem execWith_of_handle_dite {i : Instr} {s : State} {p : Prop} [Decidable p] {f : p → State} {e : Raise}
    (hhandle : handle i s = if h : p then .ok (f h) else .error e) (opc : Opc) :
    execWith opc i s = .next
      (if h : p then haltIf i.role (advancePc i.role (f h))
      else s.faultedBy e.kind (some (opc.byte i.role)) e.detail) := by
  by_cases h : p
  · rw [dif_pos h] at hhandle ⊢
    exact execWith_of_handle_ok hhandle opc
  · rw [dif_neg h] at hhandle ⊢
    exact execWith_of_handle_error hhandle opc

/-- R85. -/
theorem execWith_load (opc : Opc) (a imm : Byte) (s : State) :
    execWith opc (.load a imm) s = .next
      (if h : a.toNat < 8 then { s with x := s.x.set a.toNat imm h, pc := s.pc + 3 }
      else s.faultedBy .invalidRegister (some (opc.byte .load)) a.toNat) :=
  execWith_of_handle_dite (i := .load a imm) (handleLoad_eq a imm s) opc

/-- R86. -/
theorem execWith_print (opc : Opc) (a : Byte) (s : State) :
    execWith opc (.print a) s = .next
      (if h : a.toNat < 8 then { s with out := s.out ++ [s.x[a.toNat]], pc := s.pc + 2 }
      else s.faultedBy .invalidRegister (some (opc.byte .print)) a.toNat) :=
  execWith_of_handle_dite (i := .print a) (handlePrint_eq a s) opc

/-! ### The whole step (R85 to R87) -/

/-- Settles O23: Load has two operand bytes, so the last address it runs at is 253. -/
theorem loadStep : Obligations.LoadStep := by
  intro opc s hs hpc hop
  have hlast : 255 < s.pc + Role.load.operandCount ↔ 254 ≤ s.pc := by
    simp only [Role.operandCount]
    omega
  simp only [stepWith_of_read_eq_byte hs hpc hop, hlast]
  by_cases hend : 254 ≤ s.pc
  · rw [if_pos hend, if_pos hend]
  · rw [if_neg hend, if_neg hend]
    exact execWith_load ..

/-- Settles O24: Print has one operand byte, so the last address it runs at is 254. -/
theorem printStep : Obligations.PrintStep := by
  intro opc s hs hpc hop
  have hlast : 255 < s.pc + Role.print.operandCount ↔ s.pc = 255 := by
    simp only [Role.operandCount]
    omega
  simp only [stepWith_of_read_eq_byte hs hpc hop, hlast]
  by_cases hend : s.pc = 255
  · rw [if_pos hend, if_pos hend]
  · rw [if_neg hend, if_neg hend]
    exact execWith_print ..

/-- Settles O25: Halt's opcode byte is all it fetches, so it runs at 255 too. -/
theorem haltStep : Obligations.HaltStep :=
  fun _ _ => stepWith_halt

/-! ### The instructions that complete, under the default table -/

/-- Settles O14, the branch of `execWith_load` for a register that exists. -/
theorem loadWritesRegister : Obligations.LoadWritesRegister := by
  intro a imm s h
  rw [exec_eq_execWith, execWith_load, dif_pos h]

/-- Settles O15, the branch of `execWith_print` for a register that exists. -/
theorem printEmitsRegister : Obligations.PrintEmitsRegister := by
  intro a s h
  rw [exec_eq_execWith, execWith_print, dif_pos h]

/-- Settles O16: Halt's handler raises nothing, so the advance and the move to Halted follow in every state. -/
theorem haltStops : Obligations.HaltStops :=
  fun s => execWith_of_handle_ok (i := .halt) (u := s) rfl defaultOpc

end Sys2Proof.Machine

/-! PROOFS. Add and Multiply (spec/42_arithmetic.md): one argument for every ALU function, then the two of R88 and
R89. -/

namespace Sys2Proof.Machine

/-! ### What an ALU instruction does, the register operands unchecked (R62, R88, R89) -/

/-- R88, R89: an ALU instruction checks register a and then register b, and completes when both exist. -/
theorem execWith_of_handle_alu {i : Instr} {f : Byte → Byte → Byte} {a b : Byte} {s : State}
    (hhandle : handle i s = handleAlu f a b s) (opc : Opc) :
    execWith opc i s = .next
      (if h : a.toNat < 8 then
        if _h' : b.toNat < 8 then
          haltIf i.role (advancePc i.role { s with x := s.x.set a.toNat (f s.x[a.toNat] s.x[b.toNat]) h })
        else s.faultedBy .invalidRegister (some (opc.byte i.role)) b.toNat
      else s.faultedBy .invalidRegister (some (opc.byte i.role)) a.toNat) := by
  rw [handleAlu_eq] at hhandle
  by_cases ha : a.toNat < 8
  · rw [dif_pos ha] at hhandle ⊢
    exact execWith_of_handle_dite hhandle opc
  · rw [dif_neg ha] at hhandle ⊢
    exact execWith_of_handle_error hhandle opc

/-- R88. -/
theorem execWith_add (opc : Opc) (a b : Byte) (s : State) :
    execWith opc (.add a b) s = .next
      (if h : a.toNat < 8 then
        if _h' : b.toNat < 8 then
          { s with x := s.x.set a.toNat (aluAdd s.x[a.toNat] s.x[b.toNat]) h, pc := s.pc + 3 }
        else s.faultedBy .invalidRegister (some (opc.byte .add)) b.toNat
      else s.faultedBy .invalidRegister (some (opc.byte .add)) a.toNat) :=
  execWith_of_handle_alu (i := .add a b) rfl opc

/-- R89. -/
theorem execWith_multiply (opc : Opc) (a b : Byte) (s : State) :
    execWith opc (.multiply a b) s = .next
      (if h : a.toNat < 8 then
        if _h' : b.toNat < 8 then
          { s with x := s.x.set a.toNat (aluMultiply s.x[a.toNat] s.x[b.toNat]) h, pc := s.pc + 3 }
        else s.faultedBy .invalidRegister (some (opc.byte .multiply)) b.toNat
      else s.faultedBy .invalidRegister (some (opc.byte .multiply)) a.toNat) :=
  execWith_of_handle_alu (i := .multiply a b) rfl opc

/-! ### The whole step (R88, R89) -/

/-- R74: an instruction with two operand bytes runs at 253 at the last; at 254 and 255 one of them is past the end. -/
theorem stepWith_of_operandCount_eq_two {opc : Opc} {s t : State} {r : Role} (hr : r.operandCount = 2)
    (hs : s.status = .running) (hpc : s.pc ≤ 255) (hop : s.mem.read s.pc = opc.byte r)
    (hexec : execWith opc (Instr.ofRole r (s.mem.read (s.pc + 1)) (s.mem.read (s.pc + 2))) s = .next t) :
    stepWith opc s = .next (if 254 ≤ s.pc then s.faultedBy .outOfBounds (some (opc.byte r)) 256 else t) := by
  rw [stepWith_of_read_eq_byte hs hpc hop, hr, hexec]
  by_cases hend : 254 ≤ s.pc
  · rw [if_pos hend, if_pos (by omega)]
  · rw [if_neg hend, if_neg (by omega)]

/-- Settles O26: where its operands are in memory, the step is `execWith_add` on the two bytes. -/
theorem addStep : Obligations.AddStep :=
  fun _ _ hs hpc hop => stepWith_of_operandCount_eq_two rfl hs hpc hop (execWith_add ..)

/-- Settles O27: where its operands are in memory, the step is `execWith_multiply` on the two bytes. -/
theorem multiplyStep : Obligations.MultiplyStep :=
  fun _ _ hs hpc hop => stepWith_of_operandCount_eq_two rfl hs hpc hop (execWith_multiply ..)

/-! ### The instructions that complete, under the default table -/

/-- Settles O17, the branch of `execWith_add` for registers that exist. -/
theorem addWrapsModulo256 : Obligations.AddWrapsModulo256 := by
  intro a b s ha hb
  rw [exec_eq_execWith, execWith_add, dif_pos ha, dif_pos hb, aluAdd]

/-- Settles O18, the branch of `execWith_multiply` for registers that exist. -/
theorem multiplyWrapsModulo256 : Obligations.MultiplyWrapsModulo256 := by
  intro a b s ha hb
  rw [exec_eq_execWith, execWith_multiply, dif_pos ha, dif_pos hb, aluMultiply]

end Sys2Proof.Machine

/-! PROOFS. Push and Pop (spec/43_stack.md): what each does in every state, the whole step at its opcode byte, a Push
undone by a Pop, and how many Pushes the stack has room for. -/

namespace Sys2Proof.Machine

/-! ### What Push and Pop do, SP and the register operand unchecked (R62, R93, R94) -/

/-- R93: the order is SP and then the register. -/
theorem execWith_push (opc : Opc) (a : Byte) (s : State) :
    execWith opc (.push a) s = .next
      (if s.x[7] = 0 then s.faultedBy .stackOverflow (some (opc.byte .push)) 0
      else if h : a.toNat < 8 then
        { s with
          x := s.x.set 7 (s.x[7] - 1)
          mem := s.mem.write (s.x[7].toNat - 1) (s.x.set 7 (s.x[7] - 1))[a.toNat]
          pc := s.pc + 2 }
      else s.faultedBy .invalidRegister (some (opc.byte .push)) a.toNat) := by
  have hhandle := handlePush_eq a s
  by_cases h0 : s.x[7] = 0
  · rw [if_pos h0] at hhandle ⊢
    exact execWith_of_handle_error (i := .push a) hhandle opc
  · rw [if_neg h0] at hhandle ⊢
    exact execWith_of_handle_dite (i := .push a) hhandle opc

/-- R94: the order is the register and then the SP that its write has left. -/
theorem execWith_pop (opc : Opc) (a : Byte) (s : State) :
    execWith opc (.pop a) s = .next
      (if h : a.toNat < 8 then
        if (s.x.set a.toNat (s.mem.read s.x[7].toNat) h)[7] = 0xFF#8 then
          s.faultedBy .stackUnderflow (some (opc.byte .pop)) 255
        else
          { s with
            x := (s.x.set a.toNat (s.mem.read s.x[7].toNat) h).set 7
              ((s.x.set a.toNat (s.mem.read s.x[7].toNat) h)[7] + 1)
            pc := s.pc + 2 }
      else s.faultedBy .invalidRegister (some (opc.byte .pop)) a.toNat) := by
  have hhandle := handlePop_eq a s
  by_cases ha : a.toNat < 8
  · rw [dif_pos ha] at hhandle ⊢
    by_cases hlast : (s.x.set a.toNat (s.mem.read s.x[7].toNat) ha)[7] = 0xFF#8
    · rw [if_pos hlast] at hhandle ⊢
      exact execWith_of_handle_error (i := .pop a) hhandle opc
    · rw [if_neg hlast] at hhandle ⊢
      exact execWith_of_handle_ok (i := .pop a) hhandle opc
  · rw [dif_neg ha] at hhandle ⊢
    exact execWith_of_handle_error (i := .pop a) hhandle opc

/-! ### The whole step (R93, R94) -/

/-- R74: an instruction with one operand byte runs at 254 at the last; at 255 that byte is past the end. -/
theorem stepWith_of_operandCount_eq_one {opc : Opc} {s t : State} {r : Role} (hr : r.operandCount = 1)
    (hs : s.status = .running) (hpc : s.pc ≤ 255) (hop : s.mem.read s.pc = opc.byte r)
    (hexec : execWith opc (Instr.ofRole r (s.mem.read (s.pc + 1)) (s.mem.read (s.pc + 2))) s = .next t) :
    stepWith opc s = .next (if s.pc = 255 then s.faultedBy .outOfBounds (some (opc.byte r)) 256 else t) := by
  rw [stepWith_of_read_eq_byte hs hpc hop, hr, hexec]
  by_cases hend : s.pc = 255
  · rw [if_pos hend, if_pos (by omega)]
  · rw [if_neg hend, if_neg (by omega)]

/-- Settles O28: where its operand is in memory, the step is `execWith_push` on that byte. -/
theorem pushStep : Obligations.PushStep :=
  fun _ _ hs hpc hop => stepWith_of_operandCount_eq_one rfl hs hpc hop (execWith_push ..)

/-- Settles O29: where its operand is in memory, the step is `execWith_pop` on that byte. -/
theorem popStep : Obligations.PopStep :=
  fun _ _ hs hpc hop => stepWith_of_operandCount_eq_one rfl hs hpc hop (execWith_pop ..)

/-! ### The instructions that complete, under the default table -/

/-- Settles O19, the branch of `execWith_push` with room on the stack and a register that exists. -/
theorem pushStoresBelowSp : Obligations.PushStoresBelowSp := by
  intro a s ha h0
  rw [exec_eq_execWith, execWith_push, if_neg h0, dif_pos ha]

/-- Settles O20, the branch of `execWith_pop` with a register that exists and an SP that can be incremented. -/
theorem popLoadsAtSp : Obligations.PopLoadsAtSp := by
  intro a s ha hlast
  rw [exec_eq_execWith, execWith_pop, dif_pos ha, if_neg hlast]

/-! ### A Push undone by a Pop (R95) -/

/-- R94: a Pop into R0 to R6 does not touch the SP it increments. -/
theorem exec_pop_of_lt {b : Byte} {s : State} (hb : b.toNat < 7) (hlast : s.x[7] ≠ 0xFF#8) :
    exec (.pop b) s = .next { s with
      x := (s.x.set b.toNat (s.mem.read s.x[7].toNat)).set 7 (s.x[7] + 1)
      pc := s.pc + 2 } := by
  have hsp : (s.x.set b.toNat (s.mem.read s.x[7].toNat))[7] = s.x[7] := Vector.getElem_set_ne _ _ (by omega)
  have h := popLoadsAtSp b s (by omega) (hsp ▸ hlast)
  rwa [hsp] at h

/-- A register written between two writes of SP, the second of which puts SP back, is the one change. -/
theorem set_sp_set_set_sp {x : Vector Byte 8} {r : Nat} (v w : Byte) (hr : r < 7) :
    ((x.set 7 w).set r v).set 7 x[7] = x.set r v := by
  rw [Vector.set_comm w v (by omega), Vector.set_set]
  have hsp : (x.set r v)[7] = x[7] := Vector.getElem_set_ne _ _ (by omega)
  rw [← hsp, Vector.set_getElem_self]

/-- Settles O46: the Pop reads the byte just pushed, at the SP the Push left, and increments that SP. -/
theorem pushPopRoundTrip : Obligations.PushPopRoundTrip := by
  intro a b s ha hb h0
  refine ⟨_, (exec_eq_execWith ..).trans (execWith_push_of_lt ha h0 _), ?_⟩
  have hlast : (s.x.set 7 (s.x[7] - 1))[7] ≠ 0xFF#8 := by
    rw [Vector.getElem_set_self]
    bv_omega
  rw [exec_pop_of_lt hb hlast]
  have haddr : (s.x[7] - 1).toNat = s.x[7].toNat - 1 := by bv_omega
  simp only [Vector.getElem_set_self, haddr, Memory.read_write, if_true, sub_add_cancel, set_sp_set_set_sp _ _ hb]

/-! ### The capacity of the stack (R92) -/

theorem execSeq_cons_of_next {run : Instr → State → Host.Outcome State Fault Refusal} {i : Instr} {s t : State}
    (h : run i s = .next t) (is : List Instr) : execSeq run (i :: is) s = execSeq run is t := by
  rw [execSeq, h]

/-- R93: with SP at 0 every Push overflows, whatever its operand. -/
theorem exec_push_of_sp_eq_zero {s : State} (h0 : s.x[7] = 0) (a : Byte) :
    exec (.push a) s = .next (s.faultedBy .stackOverflow (some (defaultOpc.byte .push)) 0) := by
  rw [exec_eq_execWith, execWith_push, if_pos h0]

/-- R93: a Push with room on the stack takes one byte of it. -/
theorem exec_push_completes {a : Byte} {s : State} (ha : a.toNat < 8) (h0 : 0 < s.x[7].toNat) :
    ∃ t, exec (.push a) s = .next t ∧ t.status = s.status ∧ t.x[7].toNat = s.x[7].toNat - 1 ∧ t.pc = s.pc + 2 := by
  have hne : s.x[7] ≠ 0 := by bv_omega
  refine ⟨_, pushStoresBelowSp a s ha hne, rfl, ?_, rfl⟩
  rw [Vector.getElem_set_self]
  bv_omega

/-- R92: Pushes complete one after another while SP has room for all of them. -/
theorem execSeq_push_completes {as : List Byte} {s : State} (has : ∀ a ∈ as, a.toNat < 8)
    (hroom : as.length ≤ s.x[7].toNat) :
    ∃ t, execSeq exec (as.map .push) s = .next t ∧ t.status = s.status ∧
      t.x[7].toNat = s.x[7].toNat - as.length ∧ t.pc = s.pc + 2 * as.length := by
  induction as generalizing s with
  | nil => exact ⟨s, rfl, rfl, rfl, rfl⟩
  | cons a as ih =>
    rw [List.length_cons] at hroom ⊢
    obtain ⟨u, hu, hustatus, husp, hupc⟩ := exec_push_completes (s := s) (has a (.head _)) (by omega)
    obtain ⟨t, ht, hstatus, hsp, hpc⟩ := ih (s := u) (fun b hb => has b (.tail _ hb)) (by omega)
    exact ⟨t, (execSeq_cons_of_next hu _).trans ht, hstatus.trans hustatus, by omega, by omega⟩

/-- Settles O49: the Pushes use up the SP there was, and at SP = 0 the next one overflows. -/
theorem stackCapacity : Obligations.StackCapacity := by
  refine ⟨fun as s has hroom => ?_, rfl⟩
  obtain ⟨t, ht, hstatus, hsp, hpc⟩ := execSeq_push_completes has hroom
  refine ⟨t, ht, hstatus, hsp, hpc, fun hfull => exec_push_of_sp_eq_zero ?_⟩
  rw [hfull, Nat.sub_self] at hsp
  exact BitVec.eq_of_toNat_eq hsp

end Sys2Proof.Machine

/-! PROOFS. Call and Return (spec/44_call_return.md): what each does in every state, the whole step at its opcode
byte, a Return to what a Call or a Push has pushed, and how deep Calls can nest. -/

namespace Sys2Proof.Machine

/-! ### What Call and Return do, SP and the register operand unchecked (R62, R96, R97) -/

/-- R96: the order is SP, the return address and then the register. -/
theorem execWith_call (opc : Opc) (a : Byte) (s : State) :
    execWith opc (.call a) s = .next
      (if s.x[7] = 0 then s.faultedBy .stackOverflow (some (opc.byte .call)) 0
      else if 255 < s.pc + 2 then s.faultedBy .outOfBounds (some (opc.byte .call)) (s.pc + 2)
      else if h : a.toNat < 8 then
        { s with
          x := s.x.set 7 (s.x[7] - 1)
          mem := s.mem.write (s.x[7].toNat - 1) (BitVec.ofNat 8 (s.pc + 2))
          pc := ((s.x.set 7 (s.x[7] - 1))[a.toNat]).toNat }
      else s.faultedBy .invalidRegister (some (opc.byte .call)) a.toNat) := by
  have hhandle := handleCall_eq a s
  by_cases h0 : s.x[7] = 0
  · rw [if_pos h0] at hhandle ⊢
    exact execWith_of_handle_error (i := .call a) hhandle opc
  rw [if_neg h0] at hhandle ⊢
  by_cases hpast : 255 < s.pc + 2
  · rw [if_pos hpast] at hhandle ⊢
    exact execWith_of_handle_error (i := .call a) hhandle opc
  · rw [if_neg hpast] at hhandle ⊢
    exact execWith_of_handle_dite (i := .call a) hhandle opc

/-- R97: SP is the one thing checked. -/
theorem execWith_ret (opc : Opc) (s : State) :
    execWith opc .ret s = .next
      (if s.x[7] = 0xFF#8 then s.faultedBy .stackUnderflow (some (opc.byte .ret)) 255
      else { s with x := s.x.set 7 (s.x[7] + 1), pc := (s.mem.read s.x[7].toNat).toNat }) := by
  have hhandle := handleReturn_eq s
  by_cases hlast : s.x[7] = 0xFF#8
  · rw [if_pos hlast] at hhandle ⊢
    exact execWith_of_handle_error (i := .ret) hhandle opc
  · rw [if_neg hlast] at hhandle ⊢
    exact execWith_of_handle_ok (i := .ret) hhandle opc

/-! ### The whole step (R96, R97) -/

/-- Settles O30: at 255 the operand is past the end of memory; at 254 it is the return address that does not fit. -/
theorem callStep : Obligations.CallStep := by
  intro opc s hs hpc hop
  rw [stepWith_of_operandCount_eq_one rfl hs hpc hop (execWith_call ..)]
  by_cases hend : s.pc = 255
  · rw [if_pos hend, if_pos hend]
  rw [if_neg hend, if_neg hend]
  by_cases hlast : s.pc = 254
  · have hpast : 255 < s.pc + 2 := by omega
    have haddr : s.pc + 2 = 256 := by omega
    rw [if_pos hpast, if_pos hlast, haddr]
  · rw [if_neg (by omega : ¬ 255 < s.pc + 2), if_neg hlast]

/-- Settles O31: Return's opcode byte is all it fetches, so the step is `execWith_ret` at 255 too. -/
theorem returnStep : Obligations.ReturnStep := by
  intro opc s hs hpc hop
  have hfits : ¬ 255 < s.pc + Role.ret.operandCount := Nat.not_lt.2 hpc
  rw [stepWith_of_read_eq_byte hs hpc hop, if_neg hfits]
  exact execWith_ret opc s

/-! ### The instructions that complete, under the default table -/

/-- Settles O21, the branch of `execWith_call` with room on the stack, a return address that fits and a register
that exists. -/
theorem callPushesAndJumps : Obligations.CallPushesAndJumps := by
  intro a s ha h0 hfits
  rw [exec_eq_execWith, execWith_call, if_neg h0, if_neg (Nat.not_lt.2 hfits), dif_pos ha]

/-- Settles O22, the branch of `execWith_ret` with an SP that can be incremented. -/
theorem returnPopsPc : Obligations.ReturnPopsPc := by
  intro s hlast
  rw [exec_eq_execWith, execWith_ret, if_neg hlast]

/-! ### A Return to what was pushed (R97, R98) -/

/-- R97: a Return one below an SP that was not 0 gives that SP back and jumps to the byte stored there. -/
theorem exec_ret_of_sp_eq_sub_one {u : State} {sp : Byte} (h0 : sp ≠ 0) (hsp : u.x[7] = sp - 1) :
    exec .ret u = .next { u with x := u.x.set 7 sp, pc := (u.mem.read (sp.toNat - 1)).toNat } := by
  have hlast : u.x[7] ≠ 0xFF#8 := by bv_omega
  have haddr : (sp - 1).toNat = sp.toNat - 1 := by bv_omega
  rw [returnPopsPc u hlast, hsp, sub_add_cancel, haddr]

/-- Settles O47: the byte the Call stored is at the SP the Return finds, and it holds all of h + 2. -/
theorem callReturnResumes : Obligations.CallReturnResumes := by
  intro a s t u ha h0 hfits hcall hsp hread
  rw [callPushesAndJumps a s ha h0 hfits] at hcall
  cases hcall
  have haddr : (s.x[7] - 1).toNat = s.x[7].toNat - 1 := by bv_omega
  simp only [Vector.getElem_set_self] at hsp hread
  rw [hsp, haddr, Memory.read_write, if_pos rfl] at hread
  rw [exec_ret_of_sp_eq_sub_one h0 hsp, hread, BitVec.toNat_ofNat, Nat.mod_eq_of_lt (by omega)]

/-- Settles O48: the Return finds the byte just pushed, and the SP it gives back makes the registers what they
were. -/
theorem pushReturnJumps : Obligations.PushReturnJumps := by
  intro a s ha h0
  refine ⟨_, (exec_eq_execWith ..).trans (execWith_push_of_lt ha h0 _), ?_⟩
  rw [exec_ret_of_sp_eq_sub_one h0 (Vector.getElem_set_self _)]
  simp only [Memory.read_write, if_true, Vector.set_set, Vector.set_getElem_self]

/-! ### How deep Calls can nest (R99) -/

/-- R96: with SP at 0 every Call overflows, whatever its operand and its address. -/
theorem exec_call_of_sp_eq_zero {s : State} (h0 : s.x[7] = 0) (a : Byte) :
    exec (.call a) s = .next (s.faultedBy .stackOverflow (some (defaultOpc.byte .call)) 0) := by
  rw [exec_eq_execWith, execWith_call, if_pos h0]

/-- R99: the operand of a nested Call: one of R0 to R6 that holds an address a Call can return past. -/
def State.NestsThrough (s : State) (a : Byte) : Prop := ∃ _h : a.toNat < 7, s.x[a.toNat].toNat ≤ 253

/-- R7 is none of these operands, so moving SP changes none of their targets. -/
theorem State.NestsThrough.setSp {s : State} {a : Byte} (h : s.NestsThrough a) (v : Byte) :
    (s.setSp v).NestsThrough a := by
  obtain ⟨ha, htarget⟩ := h
  refine ⟨ha, ?_⟩
  rwa [State.setSp_x, Vector.getElem_set_ne _ _ (by omega)]

/-- A nested Call takes one byte of the stack, lands where the next one can return past, and leaves every operand of
a nested Call such. -/
theorem exec_call_completes {a : Byte} {s : State} (ha : s.NestsThrough a) (h0 : 0 < s.x[7].toNat)
    (hpc : s.pc ≤ 253) :
    ∃ t, exec (.call a) s = .next t ∧ t.status = s.status ∧ t.pc ≤ 253 ∧ t.x[7].toNat = s.x[7].toNat - 1 ∧
      ∀ b, s.NestsThrough b → t.NestsThrough b := by
  obtain ⟨hlt, htarget⟩ := ha.setSp (s.x[7] - 1)
  have hne : s.x[7] ≠ 0 := by bv_omega
  refine ⟨_, callPushesAndJumps a s (by omega) hne (by omega), rfl, htarget, ?_, fun _ hb => hb.setSp _⟩
  rw [Vector.getElem_set_self]
  bv_omega

/-- R99: nested Calls complete one after another while SP has room for all of them. -/
theorem execSeq_call_completes {as : List Byte} {s : State} (hpc : s.pc ≤ 253) (has : ∀ a ∈ as, s.NestsThrough a)
    (hroom : as.length ≤ s.x[7].toNat) :
    ∃ t, execSeq exec (as.map .call) s = .next t ∧ t.status = s.status ∧ t.pc ≤ 253 ∧
      t.x[7].toNat = s.x[7].toNat - as.length := by
  induction as generalizing s with
  | nil => exact ⟨s, rfl, rfl, hpc, rfl⟩
  | cons a as ih =>
    rw [List.length_cons] at hroom ⊢
    obtain ⟨u, hu, hustatus, hupc, husp, hkept⟩ := exec_call_completes (has a (.head _)) (by omega) hpc
    obtain ⟨t, ht, hstatus, htpc, hsp⟩ := ih hupc (fun b hb => hkept b (has b (.tail _ hb))) (by omega)
    exact ⟨t, (execSeq_cons_of_next hu _).trans ht, hstatus.trans hustatus, htpc, by omega⟩

/-- Settles O50: the Calls use up the SP there was, and at SP = 0 the next one overflows. -/
theorem callDepth : Obligations.CallDepth := by
  intro as s hpc has hroom
  obtain ⟨t, ht, hstatus, htpc, hsp⟩ := execSeq_call_completes hpc has hroom
  refine ⟨t, ht, hstatus, htpc, hsp, fun hfull => exec_call_of_sp_eq_zero ?_⟩
  rw [hfull, Nat.sub_self] at hsp
  exact BitVec.eq_of_toNat_eq hsp

end Sys2Proof.Machine

/-! PROOFS. The state after construction (R117), for every choice of the open parameters. -/

namespace Sys2Proof.Machine

/-- R117: R7 is the stack pointer's reset value, whatever `reg_init` is. -/
theorem State.resetWith_sp (regInit : Vector Byte 7) (memInit : Memory) :
    (State.resetWith regInit memInit).x[7] = spReset :=
  Vector.getElem_push_eq

/-- R117: R0 to R6 are those of `reg_init`. -/
theorem State.resetWith_getElem_of_lt (regInit : Vector Byte 7) (memInit : Memory) {r : Nat} (hr : r < 7) :
    (State.resetWith regInit memInit).x[r] = regInit[r] :=
  Vector.getElem_push_lt hr

/-- Settles O51: the registers by the two lemmas above, the other fields as the constructor sets them. -/
theorem resetState : Obligations.ResetState := fun regInit memInit =>
  ⟨rfl, State.resetWith_sp regInit memInit, fun _ hr => State.resetWith_getElem_of_lt regInit memInit hr, rfl, rfl, rfl⟩

/-- Settles O39: memory is canonical by hypothesis, the pc is 0, and an Idle machine has no record to fit. -/
theorem resetHasInv : Obligations.ResetHasInv := by
  intro opc regInit memInit hm
  obtain ⟨hpc, -, -, hmem, hstatus, -⟩ := resetState regInit memInit
  refine State.invWith_of_not_faulted ?_ ?_ ?_
  · rwa [hmem]
  · exact hpc ▸ Nat.zero_le 256
  · exact congrArg Status.isFaulted hstatus

end Sys2Proof.Machine

/-! PROOFS. The canonical form of memory: a canonical memory is determined by what it reads. -/

namespace Sys2Proof.Machine

theorem Memory.wfFrom_cons {lo k : Nat} {v : Byte} {m : Memory} :
    Memory.wfFrom lo ((k, v) :: m) = true ↔
      lo ≤ k ∧ k < memSize ∧ v ≠ unlistedByte ∧ m.wfFrom (k + 1) = true := by
  simp [Memory.wfFrom, and_assoc]

theorem Memory.read_cons_self (k : Nat) (v : Byte) (m : Memory) : Memory.read ((k, v) :: m) k = v :=
  if_pos rfl

theorem Memory.read_cons_of_ne {k a : Nat} (hne : k ≠ a) (v : Byte) (m : Memory) :
    Memory.read ((k, v) :: m) a = m.read a :=
  if_neg hne

/-- The first address a canonical memory lists is no lower than where a memory that reads alike begins: below that the
other reads the unlisted byte, which the first does not list. -/
theorem Memory.le_head_of_reads_alike {m m' : Memory} {lo lo' k : Nat} {v : Byte}
    (hm : Memory.wfFrom lo ((k, v) :: m) = true) (hm' : m'.wfFrom lo' = true)
    (hread : ∀ a < memSize, Memory.read ((k, v) :: m) a = m'.read a) : lo' ≤ k := by
  obtain ⟨-, hk, hv, -⟩ := Memory.wfFrom_cons.mp hm
  by_contra hlt
  have hunlisted : m'.read k = unlistedByte := Memory.read_of_wfFrom hm' (Nat.lt_of_not_le hlt)
  exact hv (by rw [← Memory.read_cons_self k v m, hread k hk, hunlisted])

/-- A canonical memory that lists a byte does not read as the empty one, which is canonical from `memSize` up. -/
theorem Memory.not_cons_reads_as_nil {m : Memory} {lo k : Nat} {v : Byte}
    (hm : Memory.wfFrom lo ((k, v) :: m) = true) :
    ¬ ∀ a < memSize, Memory.read ((k, v) :: m) a = Memory.read [] a := by
  intro hread
  obtain ⟨-, hk, -, -⟩ := Memory.wfFrom_cons.mp hm
  exact Nat.not_le_of_lt hk (Memory.le_head_of_reads_alike hm rfl hread)

/-- Behind equal first entries memories still read alike: at the first address both read the unlisted byte. -/
theorem Memory.tails_read_alike {m m' : Memory} {k : Nat} {v v' : Byte} (hm : m.wfFrom (k + 1) = true)
    (hm' : m'.wfFrom (k + 1) = true)
    (hread : ∀ a < memSize, Memory.read ((k, v) :: m) a = Memory.read ((k, v') :: m') a) :
    ∀ a < memSize, m.read a = m'.read a := by
  intro a ha
  by_cases hka : k = a
  · subst hka
    rw [Memory.read_of_wfFrom hm (Nat.lt_succ_self k), Memory.read_of_wfFrom hm' (Nat.lt_succ_self k)]
  · simpa only [Memory.read_cons_of_ne hka] using hread a ha

/-- Canonical memories are equal when they read alike, by induction along the two lists. -/
theorem Memory.eq_of_reads_alike {m m' : Memory} {lo lo' : Nat} (hm : m.wfFrom lo = true)
    (hm' : m'.wfFrom lo' = true) (hread : ∀ a < memSize, m.read a = m'.read a) : m = m' := by
  induction m generalizing m' lo lo' with
  | nil =>
    cases m' with
    | nil => rfl
    | cons c' m' => exact absurd (fun a ha => (hread a ha).symm) (Memory.not_cons_reads_as_nil hm')
  | cons c m ih =>
    obtain ⟨k, v⟩ := c
    cases m' with
    | nil => exact absurd hread (Memory.not_cons_reads_as_nil hm)
    | cons c' m' =>
      obtain ⟨k', v'⟩ := c'
      obtain ⟨-, hk, hv, htail⟩ := Memory.wfFrom_cons.mp hm
      obtain ⟨-, hk', hv', htail'⟩ := Memory.wfFrom_cons.mp hm'
      have hfrom : Memory.wfFrom k ((k, v) :: m) = true := Memory.wfFrom_cons.mpr ⟨le_rfl, hk, hv, htail⟩
      have hfrom' : Memory.wfFrom k' ((k', v') :: m') = true := Memory.wfFrom_cons.mpr ⟨le_rfl, hk', hv', htail'⟩
      obtain rfl : k = k' := le_antisymm
        (Memory.le_head_of_reads_alike hm' hfrom fun a ha => (hread a ha).symm)
        (Memory.le_head_of_reads_alike hm hfrom' hread)
      obtain rfl : v = v' := by simpa only [Memory.read_cons_self] using hread k hk
      rw [ih htail htail' (Memory.tails_read_alike htail htail' hread)]

/-- Settles O36: the addresses up to 255 are those of the machine. -/
theorem canonicalMemoryUnique : Obligations.CanonicalMemoryUnique := fun _ _ hm hm' hread =>
  Memory.eq_of_reads_alike hm hm' fun a ha => hread a (Nat.le_of_lt_succ ha)

end Sys2Proof.Machine
